-- ==== Sys2Proof/Word.lean ====
section
/-! DEFINITION. The words of the block: bytes, 16-bit values, command words, response words
(00_scope.md R6, R8). Bit `i` of a word has weight `2^i`, which is `BitVec`'s own numbering. -/

namespace Sys2Proof

/-- A byte: 8 bits, bit 7 the most significant (R8). -/
abbrev Byte := BitVec 8

/-- A 16-bit value: the operand field `ARG`, a D16 value, a payload byte count (R51). -/
abbrev Half := BitVec 16

/-- A command word, `CMD_WIDTH = 32` bits (R6, R51). -/
abbrev CommandWord := BitVec 32

/-- A response word, `RSP_WIDTH = 16` bits (R6, R56). -/
abbrev ResponseWord := BitVec 16

end Sys2Proof
end

