-- ==== Sys2Proof/Machine/Fields.lean ====
section
/-! DEFINITION. The bit fields of a command word (30_encoding.md R51) and the two bytes of a 16-bit value (R32). -/

namespace Sys2Proof.Machine

/-- `SEL = W[31:28]`, the operation select. -/
def cmdSel (w : CommandWord) : BitVec 4 := w.extractLsb' 28 4

/-- `RSV = W[27:24]`, reserved. -/
def cmdRsv (w : CommandWord) : BitVec 4 := w.extractLsb' 24 4

/-- `OPC = W[23:16]`, the opcode byte of a frame operation. -/
def cmdOpc (w : CommandWord) : Byte := w.extractLsb' 16 8

/-- `ARG = W[15:0]`, the operand. -/
def cmdArg (w : CommandWord) : Half := w.extractLsb' 0 16

/-- `v[7:0]`, the less significant byte. -/
def lowByte (v : Half) : Byte := v.extractLsb' 0 8

/-- `v[15:8]`, the more significant byte. -/
def highByte (v : Half) : Byte := v.extractLsb' 8 8

/-- The command word with these fields and `RSV = 0` (R51). -/
def packCommand (sel : BitVec 4) (opc : Byte) (arg : Half) : CommandWord := sel ++ 0#4 ++ opc ++ arg

/-- `zext_16(b)`: a byte in `ARG[7:0]` with `ARG[15:8] = 0` (R8, R53). -/
def byteArg (b : Byte) : Half := b.setWidth 16

end Sys2Proof.Machine
end

