-- ==== Sys2Proof/Config.lean ====
section
/-! DEFINITION. The configuration of the block: what a model takes as a parameter (00_scope.md R2, R6, R7).
The default configuration is `Config.d1`, in Sys2Proof/Machine/Tables.lean beside its 256 values. -/

namespace Sys2Proof

/-- The one parameter of the block whose value the source does not give: `CRC_TABLE`, 256 entries of 8 bits,
total on an 8-bit index (R6, R7, R18; decisions D1, D25). Rules that do not say "under D1" hold for every value. -/
structure Config where
  /-- `CRC_TABLE[0..255]`, the contents of `CRC_ROM`. -/
  crcTable : Vector Byte 256
  deriving DecidableEq, Repr

end Sys2Proof
end

