-- ==== Sys2Proof/Syntax.lean ====
section
/-! DEFINITION. The operations of the block as terms (R3, R50, R52, R53), what decoding a command word can answer
(R54, R55), the status names of a response (R56), and a transaction (R100, R114). -/

namespace Sys2Proof

/-- The seven operations (R3), one constructor per row of spec/opcode_table.json. Operands have exactly the width
of their field: `b`, `d` and `op` are 8 bits, `v` and `n` 16 bits (R54). -/
inductive Instr where
  /-- `CRC_CLR` (R74). -/
  | crcClr
  /-- `CRC_UPD b` (R75). -/
  | crcUpd (b : Byte)
  /-- `CRC_RD -> v` (R76). -/
  | crcRd
  /-- `MIRROR b -> v` (R87). -/
  | mirror (b : Byte)
  /-- `FRAME_D8 op, d` (R98). -/
  | frameD8 (op : Byte) (d : Byte)
  /-- `FRAME_D16 op, v` (R99). -/
  | frameD16 (op : Byte) (v : Half)
  /-- `FRAME_MULTI op, N`; the `N` payload bytes come on `PIN` (R100). -/
  | frameMulti (op : Byte) (n : Half)
  deriving DecidableEq, Repr

/-- The rule a command word breaks when it is illegal (R55, R123). The block answers `REJ_ILLEGAL` to each. -/
inductive Illegal where
  /-- `SEL` is one of the nine unassigned values (R52). -/
  | unassignedSel
  /-- `RSV` is not zero (R51). -/
  | reservedNonzero
  /-- `OPC` is not zero where R53 says it must be. -/
  | opcNonzero
  /-- `ARG` is not zero where R53 says it must be. -/
  | argNonzero
  /-- `ARG[15:8]` is not zero where R53 says it must be. -/
  | argHighNonzero
  deriving DecidableEq, Repr

/-- What decoding one of the `2^32` command words answers (R54): an operation, or an illegal word with the rule
it breaks. -/
inductive Decoded where
  | op (i : Instr)
  | illegal (why : Illegal)
  deriving DecidableEq, Repr

/-- The three status values a response can carry (R56, R121). -/
inductive Status where
  /-- The operation was performed. -/
  | ok
  /-- The command word is illegal (R55); nothing was done. -/
  | rejIllegal
  /-- `FRAME_MULTI` with `N > 247` (R101); nothing was done. -/
  | rejTooLong
  deriving DecidableEq, Repr

/-- An operation with the payload bytes the host supplies for it: the unit of the transaction level
(R95 to R102, R114). The payload is empty for every operation but `FRAME_MULTI`. -/
structure Transaction where
  op : Instr
  payload : List Byte
  deriving DecidableEq, Repr

/-- One row of the table of command-word patterns: a word `W` is the row's operation when `W & mask = pattern`
(R53). -/
structure OpcodeRow where
  mnemonic : String
  pattern : CommandWord
  mask : CommandWord
  operation : CommandWord → Instr

/-- The printer opcodes the source lists (R62). The framer carries the opcode byte without reading it. -/
inductive PrinterOpcode where
  | paperRetract
  | paperFeed
  | imageRow
  | deviceState
  | dpi
  | latticeControl
  | updateDevice
  | energy
  | speed
  | drawingMode
  deriving DecidableEq, Repr

end Sys2Proof
end

