-- ==== Sys2Proof/WellFormed.lean ====
section
/-! DEFINITION. Well-formedness: which command words are legal, written from the wording of R52, R55 and R123 and not
from the decoder, and which transactions have a meaning (R114). An `Instr` needs no check of its own: its operands
are exactly as wide as their fields (R54; log 12). -/

namespace Sys2Proof

open Machine

/-- `SEL` is one of the seven assigned values (R52). -/
def selAssigned (w : CommandWord) : Bool :=
  [0x1#4, 0x2#4, 0x3#4, 0x4#4, 0x8#4, 0x9#4, 0xA#4].contains (cmdSel w)

/-- `RSV` is `0000` (R51). -/
def rsvZero (w : CommandWord) : Bool := cmdRsv w == 0

/-- `OPC = 0` for `CRC_CLR`, `CRC_UPD`, `CRC_RD` and `MIRROR` (R53, R123). -/
def opcZeroWhereRequired (w : CommandWord) : Bool :=
  !([0x1#4, 0x2#4, 0x3#4, 0x4#4].contains (cmdSel w)) || cmdOpc w == 0

/-- `ARG = 0` for `CRC_CLR` and `CRC_RD` (R53, R123). -/
def argZeroWhereRequired (w : CommandWord) : Bool :=
  !([0x1#4, 0x3#4].contains (cmdSel w)) || cmdArg w == 0

/-- `ARG[15:8] = 0` for `CRC_UPD`, `MIRROR` and `FRAME_D8` (R53, R123). -/
def argHighZeroWhereRequired (w : CommandWord) : Bool :=
  !([0x2#4, 0x4#4, 0x8#4].contains (cmdSel w)) || highByte (cmdArg w) == 0

/-- A command word is legal when none of the conditions of R55 makes it illegal. -/
def CommandWord.legal (w : CommandWord) : Bool :=
  selAssigned w && rsvZero w && opcZeroWhereRequired w && argZeroWhereRequired w && argHighZeroWhereRequired w

/-- The number of payload bytes the host owes on `PIN` after this operation is answered (R114): `N` for an accepted
`FRAME_MULTI`, none for a rejected one (R101), none for every other operation. -/
def Instr.owed : Instr → Nat
  | .crcClr => 0
  | .crcUpd _ => 0
  | .crcRd => 0
  | .mirror _ => 0
  | .frameD8 _ _ => 0
  | .frameD16 _ _ => 0
  | .frameMulti _ n => if n.toNat ≤ maxPayload then n.toNat else 0

/-- A transaction has a meaning when the host supplies exactly the payload it owes (R114: `len(p) = N`). -/
def Transaction.wf (t : Transaction) : Bool := t.payload.length == t.op.owed

end Sys2Proof
end

