-- ==== Sys2Proof/Decode.lean ====
section
/-! DEFINITION. Decoding a command word, total on all `2^32` words and rejecting by name (R51 to R55), the encoder, and
the table of patterns of R53, from the same encoding rules. -/

namespace Sys2Proof

open Machine

/-- A word of an operation without operand: `OPC` and `ARG` must be 0 (R53). -/
def decodeNoOperand (w : CommandWord) (i : Instr) : Decoded :=
  if cmdOpc w ≠ 0 then .illegal .opcNonzero
  else if cmdArg w ≠ 0 then .illegal .argNonzero
  else .op i

/-- A word of an operation with one byte operand in `ARG[7:0]`: `OPC` and `ARG[15:8]` must be 0 (R53). -/
def decodeByteOperand (w : CommandWord) (mk : Byte → Instr) : Decoded :=
  if cmdOpc w ≠ 0 then .illegal .opcNonzero
  else if highByte (cmdArg w) ≠ 0 then .illegal .argHighNonzero
  else .op (mk (lowByte (cmdArg w)))

/-- A `FRAME_D8` word: opcode in `OPC`, data in `ARG[7:0]`, `ARG[15:8]` must be 0 (R53). -/
def decodeFrameD8 (w : CommandWord) : Decoded :=
  if highByte (cmdArg w) ≠ 0 then .illegal .argHighNonzero
  else .op (.frameD8 (cmdOpc w) (lowByte (cmdArg w)))

/-- Decoding is total (R54). The reserved field is read first, then the operation select, then the fields that the
operation does not use (R51, R52, R53); which check names the word does not show in the response, which is
`REJ_ILLEGAL` for each (R55). -/
def decode (w : CommandWord) : Decoded :=
  if cmdRsv w ≠ 0 then .illegal .reservedNonzero
  else if cmdSel w = 0x1 then decodeNoOperand w .crcClr
  else if cmdSel w = 0x2 then decodeByteOperand w .crcUpd
  else if cmdSel w = 0x3 then decodeNoOperand w .crcRd
  else if cmdSel w = 0x4 then decodeByteOperand w .mirror
  else if cmdSel w = 0x8 then decodeFrameD8 w
  else if cmdSel w = 0x9 then .op (.frameD16 (cmdOpc w) (cmdArg w))
  else if cmdSel w = 0xA then .op (.frameMulti (cmdOpc w) (cmdArg w))
  else .illegal .unassignedSel

/-- `SEL` of an operation (R52). -/
def Instr.sel : Instr → BitVec 4
  | .crcClr => 0x1
  | .crcUpd _ => 0x2
  | .crcRd => 0x3
  | .mirror _ => 0x4
  | .frameD8 _ _ => 0x8
  | .frameD16 _ _ => 0x9
  | .frameMulti _ _ => 0xA

/-- The command word of an operation (R51, R53). -/
def encode : Instr → CommandWord
  | .crcClr => packCommand 0x1 0 0
  | .crcUpd b => packCommand 0x2 0 (byteArg b)
  | .crcRd => packCommand 0x3 0 0
  | .mirror b => packCommand 0x4 0 (byteArg b)
  | .frameD8 op d => packCommand 0x8 op (byteArg d)
  | .frameD16 op v => packCommand 0x9 op v
  | .frameMulti op n => packCommand 0xA op n

/-- The rows of R53: match, mask, and the operation with its operands read from the fields. -/
def opcodeRows : List OpcodeRow :=
  [ ⟨"CRC_CLR", 0x10000000, 0xFFFFFFFF, fun _ => .crcClr⟩,
    ⟨"CRC_UPD", 0x20000000, 0xFFFFFF00, fun w => .crcUpd (lowByte (cmdArg w))⟩,
    ⟨"CRC_RD", 0x30000000, 0xFFFFFFFF, fun _ => .crcRd⟩,
    ⟨"MIRROR", 0x40000000, 0xFFFFFF00, fun w => .mirror (lowByte (cmdArg w))⟩,
    ⟨"FRAME_D8", 0x80000000, 0xFF00FF00, fun w => .frameD8 (cmdOpc w) (lowByte (cmdArg w))⟩,
    ⟨"FRAME_D16", 0x90000000, 0xFF000000, fun w => .frameD16 (cmdOpc w) (cmdArg w)⟩,
    ⟨"FRAME_MULTI", 0xA0000000, 0xFF000000, fun w => .frameMulti (cmdOpc w) (cmdArg w)⟩ ]

/-- `W & mask = match` (R53). -/
def OpcodeRow.isWord (r : OpcodeRow) (w : CommandWord) : Bool := w &&& r.mask == r.pattern

/-- The operation in a word given as its table bits, bit 0 the least significant. A command word is one value passed
whole, with no byte order (R32), so the word is taken as it stands; bits above `nbits` are 0, and a word longer than a
command word is none (log 15). -/
def decodeTableWord (nbits w : Nat) : Option Instr :=
  if nbits ≤ 32 then
    match decode (BitVec.ofNat 32 (w % 2 ^ nbits)) with
    | .op i => some i
    | .illegal _ => none
  else none

end Sys2Proof
end

