-- ==== Sys2Proof/Machine/State.lean ====
section
/-! DEFINITION. The state of the block (10_state.md R10 to R22), with the parameters of its step relation that R21 names
and the records of the observation, as plain data; the reasons a step can stop; the state right after reset (R20). -/

namespace Sys2Proof.Machine

/-- `SRC`: where the payload bytes of the frame come from (R13). -/
inductive Src where
  /-- `FRAME_D8` and `FRAME_D16`. -/
  | fromArg
  /-- `FRAME_MULTI`. -/
  | fromPin
  deriving DecidableEq, Repr

/-- `PHASE`: which part of the frame the next output byte belongs to (R13). -/
inductive Phase where
  | head
  | payl
  | csum
  | tail
  deriving DecidableEq, Repr

/-- The fields of `FR = Busy` (R13). -/
structure Frame where
  /-- `OPC`, the opcode byte of the frame being sent. -/
  opc : Byte
  /-- `LEN`, its payload byte count. -/
  len : Byte
  /-- `SRC`. -/
  src : Src
  /-- `ARG`: the D8 data byte with a zero high byte, or the D16 value; zero for `FROM_PIN`. -/
  arg : Half
  /-- `PHASE`. -/
  phase : Phase
  /-- `IDX`, the index of the next byte within the phase. -/
  idx : Byte
  /-- `FCRC`, the framer's own running checksum (R19; D7). -/
  fcrc : Byte
  deriving DecidableEq, Repr

/-- `FR` (R13): a sum type, so that no value has to be invented for a field in `Idle`. -/
inductive Framer where
  | idle
  | busy (f : Frame)
  deriving DecidableEq, Repr

/-- One entry of the schedule: whose move is next, and for the environment what the move is (R14, R15, R16, R140;
log 2). -/
inductive EnvEvent where
  /-- The block takes its turn. -/
  | block
  /-- The host has one more command word to present on `CMD`, after those it presents already (R16). -/
  | present (w : CommandWord)
  /-- The host takes back every word that is not yet accepted (log 7). -/
  | withdrawCmd
  /-- The host has one more byte to offer on `PIN`, after those it offers already (R14). -/
  | offer (b : Byte)
  /-- The host takes back every byte that is not yet taken (log 7). -/
  | withdrawPin
  /-- The sink becomes ready, or unready, for any length of time (R15, R147). -/
  | sink (ready : Bool)
  /-- The `RESET` input is driven to this level (R140). -/
  | reset (level : Bool)
  deriving DecidableEq, Repr

/-- The observation of a run: the response words in order, and the history `OUT` (R153). -/
structure Observation where
  rsp : List ResponseWord
  out : List Byte
  deriving DecidableEq, Repr

/-- The state. `crc` and `fr` are the whole state of the block (R10). `cfg`, `resetPin`, `cmd`, `pin`, `sinkReady` and
`env` are parameters of the step relation (R6, R21), carried as data because a step takes no other argument (log 2).
`rsp`, `out` and `past` are records that no step reads (R21). -/
structure State where
  /-- The configuration: no step and no reset writes it (R18, R40; D23). -/
  cfg : Config
  /-- `CRC` (R11). -/
  crc : Byte
  /-- `FR` (R13). -/
  fr : Framer
  /-- The level of the `RESET` input, `true` while asserted (R140). -/
  resetPin : Bool
  /-- The command words that are with the host, the one it presents first (R16, R144). -/
  cmd : List CommandWord
  /-- The payload bytes that are with the host, the one it offers first (R14). -/
  pin : List Byte
  /-- Whether the sink is ready to take a byte of `OUT` (R15). -/
  sinkReady : Bool
  /-- Who moves next; when it is empty the block moves (log 2). -/
  env : List EnvEvent
  /-- The response words since the last reset, in order (R16, R153). -/
  rsp : List ResponseWord
  /-- The history `OUT`: all bytes emitted since the last reset, in order (R15). -/
  out : List Byte
  /-- What was observed before each earlier reset, oldest first: bytes already emitted stay emitted (R142; log 6). -/
  past : List Observation
  deriving DecidableEq, Repr

/-- Why a step stops with a fault. The block itself has no fault: it "never traps, never transfers control and never
stops on an error" (R120). -/
inductive Fault where
  /-- Raised by the emit step of phase `HEAD` when `IDX > 5`, a state no run reaches (R13, R22), in which the list of R104
  has no element at `IDX`. Safe: the model stops where the spec gives no byte (log 9). -/
  | headIndexOutOfRange
  deriving DecidableEq, Repr

/-- Why a step is refused. -/
inductive Refusal where
  /-- Raised by an arm of `exec` whose instruction has no meaning yet; no arm is such a one. Safe. -/
  | notModelled (mnemonic : String)
  /-- Raised by the transaction level for a `FRAME_MULTI` whose payload is not `N` bytes: it "has no meaning at that level and
  a model should refuse it" (R114; log 10). Never raised by `exec` or `step`. Safe. -/
  | payloadLengthMismatch
  deriving DecidableEq, Repr

/-- The outcome of a step of this machine. -/
abbrev Out := Host.Outcome State Fault Refusal

/-- The state right after reset: `CRC = 0x00`, `FR = Idle`, `OUT` empty (R20), the table of the default configuration
(R6), `RESET` released (R140). The spec gives the environment no reset value: nothing is presented, offered or
scheduled and the sink is ready (log 3). -/
def State.reset : State where
  cfg := Config.d1
  crc := crcSeed
  fr := .idle
  resetPin := false
  cmd := []
  pin := []
  sinkReady := true
  env := []
  rsp := []
  out := []
  past := []

end Sys2Proof.Machine
end

