-- ==== Sys2Proof/Machine/Flags.lean ====
section
/-! DEFINITION. Status: the codes a response carries, the response word (R56), and the `BUSY` output (R17). The block has no
flags register, no condition codes and no sticky error bit (R17). -/

namespace Sys2Proof.Machine

/-- The `STATUS` code of a response (R56, R121). -/
def statusCode : Status → Byte
  | .ok => 0x00
  | .rejIllegal => 0x01
  | .rejTooLong => 0x02

/-- The response word: `Q[15:8] = STATUS`, `Q[7:0] = VALUE` (R56). -/
def responseWord (status : Status) (value : Byte) : ResponseWord := statusCode status ++ value

/-- `FR = Busy`. -/
def Framer.isBusy : Framer → Bool
  | .idle => false
  | .busy _ => true

/-- The `BUSY` output: 1 exactly when `FR = Busy` (R17). It is a level, not state. -/
def State.busy (s : State) : Bool := s.fr.isBusy

/-- The command port accepts a word: `FR = Idle` (R16) and `RESET` is not asserted (R140). -/
def State.canAccept (s : State) : Bool := !s.resetPin && !s.busy

end Sys2Proof.Machine
end

