-- ==== Sys2Proof/Machine/Frames.lean ====
section
/-! DEFINITION. The pure functions of the block (00_scope.md R9): the checksum (R72, R73), the wire frame (R57, R95),
the well-formed frame (R112), and the cutting of `OUT` back into frames (R60, R113). -/

namespace Sys2Proof.Machine

/-- The two read-only address spaces (R18, R30). -/
inductive Rom where
  /-- `CRC_ROM`, contents `CRC_TABLE`. -/
  | crc
  /-- `MIR_ROM`, contents `rev8`. -/
  | mir
  deriving DecidableEq, Repr

/-- `MemRead(space, addr, 1)`: one byte at an index that is always valid (R8, R30, R36). -/
def memRead (c : Config) (space : Rom) (addr : Byte) : Byte :=
  match space with
  | .crc => c.crcTable.get addr.toFin
  | .mir => mirRom.get addr.toFin

/-- `crc_step(s, b) = CRC_TABLE[s ^ b]` (R72). -/
def crcStep (c : Config) (s b : Byte) : Byte := memRead c .crc (s ^^^ b)

/-- `foldl crc_step s bs`: a checksum continued from where it stopped (R73). -/
def checksumFrom (c : Config) (s : Byte) (bs : List Byte) : Byte := bs.foldl (crcStep c) s

/-- `checksum(bs)` (R73). -/
def checksum (c : Config) (bs : List Byte) : Byte := checksumFrom c crcSeed bs

/-- The six header bytes at frame offsets 0 to 5 (R37, R104). -/
def headerBytes (op len : Byte) : List Byte := [stx1, stx2, op, dirH2D, len, lenHigh]

/-- `frame_bytes(op, p)` (R95). It is used for `len(p) <= 247` only. -/
def frameBytes (c : Config) (op : Byte) (p : List Byte) : List Byte :=
  headerBytes op (BitVec.ofNat 8 p.length) ++ p ++ [checksum c p, etx]

/-- The frames of these opcodes and payloads, one after the other (R31, R113). -/
def framesBytes (c : Config) (fs : List (Byte × List Byte)) : List Byte :=
  fs.flatMap (fun f => frameBytes c f.1 f.2)

/-- The conditions of `WellFormedFrame(f)` (R112) but for the one on the direction byte. -/
def frameShaped (c : Config) (f : List Byte) : Bool :=
  decide (8 ≤ f.length) && f[0]? == some stx1 && f[1]? == some stx2 && f[5]? == some lenHigh &&
    (match f[4]? with
      | some n => decide (n.toNat ≤ maxPayload) && f.length == n.toNat + frameOverhead
      | none => false) &&
    f[f.length - 2]? == some (checksum c ((f.drop 6).take (f.length - 8))) && f[f.length - 1]? == some etx

/-- `WellFormedFrame(f)`: a well-formed host-to-device frame (R112). -/
def wellFormedFrame (c : Config) (f : List Byte) : Bool := frameShaped c f && f[3]? == some dirH2D

/-- The length of the frame at the front of a stream, told from its fifth and sixth bytes: `8 + lenLow + 256 * lenHigh`
(R60). DESIGN CHOICE (log 20): in a stream that ends before one of these bytes, the missing byte is read as 0. -/
def frontLength (bs : List Byte) : Nat :=
  frameOverhead + (bs.getD 4 0).toNat + 256 * (bs.getD 5 0).toNat

/-- Cut the stream into at most `fuel` frames from the front by reading each length byte (R60, R113). DESIGN CHOICE (log 20):
a rest that is shorter than its frame length is given back as the last piece. -/
def cutFrames : Nat → List Byte → List (List Byte)
  | 0, _ => []
  | _ + 1, [] => []
  | fuel + 1, b :: bs =>
    (b :: bs).take (frontLength (b :: bs)) :: cutFrames fuel ((b :: bs).drop (frontLength (b :: bs)))

end Sys2Proof.Machine
end

