-- ==== Sys2Proof/Machine/Ops.lean ====
section
/-! DEFINITION. The named operations every meaning is made of (00_scope.md R8): `CRC <- v`, `PHASE <- p`, `emit`,
`take_pin`, `respond`, `reject`; acceptance (R16); the moves of the environment (R14 to R16) and reset (R140). -/

namespace Sys2Proof.Machine

/-- `CRC <- v`. -/
def State.setCrc (s : State) (v : Byte) : State := { s with crc := v }

/-- `FR <- fr`. -/
def State.setFr (s : State) (fr : Framer) : State := { s with fr := fr }

/-- `emit(b)`: hand one byte to the sink and record it in the history `OUT` (R15). -/
def State.emit (s : State) (b : Byte) : State := { s with out := s.out ++ [b] }

/-- `emit` of each byte of a sequence, in order (R98 to R100). -/
def State.emitAll (s : State) (bs : List Byte) : State := bs.foldl State.emit s

/-- `take_pin()`: the next byte the host offers; `none` when it offers none (R14). -/
def State.takePin (s : State) : Option (Byte × State) :=
  match s.pin with
  | [] => none
  | b :: rest => some (b, { s with pin := rest })

/-- `respond(status, value)`: one response word, which is always taken (R16, R56; log 13). -/
def State.respond (s : State) (status : Status) (value : Byte) : State :=
  { s with rsp := s.rsp ++ [responseWord status value] }

/-- `reject(cause)`: `respond(cause, 0x00)` with no other effect (R8, R126). It stands in the place of taking an
exception; there is nothing to return from (R127). -/
def State.reject (s : State) (cause : Status) : State := s.respond cause 0x00

/-- The guard of every operation: its effect when the command port accepts, and nothing while it does not, for the word
then stays with the host (R16, R140, R144; log 11). -/
def accepted (effect : State → State) (s : State) : Out :=
  if s.canAccept then .next (effect s) else .next s

/-- The host stops presenting the word it presents first, which has been accepted (R16). -/
def State.popCmd (s : State) : State := { s with cmd := s.cmd.tail }

/-- The `RESET` input is driven to `level` (R140 to R142; log 5, log 6). Asserting it puts `CRC` and `FR` at their reset
values and starts a new history; they have these values while it is asserted and when it is released. Releasing what
is not asserted changes nothing. -/
def State.driveReset (s : State) (level : Bool) : State :=
  match s.resetPin, level with
  | false, false => s
  | false, true =>
    { s with resetPin := true, crc := crcSeed, fr := .idle, rsp := [], out := [], past := s.past ++ [⟨s.rsp, s.out⟩] }
  | true, l => { s with resetPin := l, crc := crcSeed, fr := .idle }

/-- One move of the environment (R14, R15, R16, R140; log 2). -/
def State.environment (s : State) : EnvEvent → State
  | .block => s
  | .present w => { s with cmd := s.cmd ++ [w] }
  | .withdrawCmd => { s with cmd := [] }
  | .offer b => { s with pin := s.pin ++ [b] }
  | .withdrawPin => { s with pin := [] }
  | .sink ready => { s with sinkReady := ready }
  | .reset level => s.driveReset level

end Sys2Proof.Machine
end

