-- ==== Sys2Proof/Machine/Crc.lean ====
section
/-! DEFINITION. The CRC unit: `CRC_CLR`, `CRC_UPD`, `CRC_RD` (40_crc.md R74 to R76). -/

namespace Sys2Proof.Machine

/-- `CRC_CLR` (R74): load the seed, answer `OK, 0x00`. -/
def execCrcClr (s : State) : Out :=
  accepted (fun s => (s.setCrc crcSeed).respond .ok 0x00) s

/-- `CRC_UPD b` (R75): one step of the checksum, answer `OK, 0x00`. -/
def execCrcUpd (b : Byte) (s : State) : Out :=
  accepted (fun s => (s.setCrc (memRead s.cfg .crc (s.crc ^^^ b))).respond .ok 0x00) s

/-- `CRC_RD -> v` (R76): answer `OK, CRC`; the register keeps its value. -/
def execCrcRd (s : State) : Out :=
  accepted (fun s => s.respond .ok s.crc) s

end Sys2Proof.Machine
end

