-- ==== Sys2Proof/Machine/Operands.lean ====
section
/-! DEFINITION. The operand forms of the framer: the payload an operation's `ARG` holds (R61), the header byte a `HEAD` step
emits (R104), and the byte a `PAYL` step gets from its source (R105). -/

namespace Sys2Proof.Machine

/-- The two payload bytes of a D16 value, little-endian (R32, R61, R99). -/
def d16Payload (v : Half) : List Byte := [lowByte v, highByte v]

/-- The element of the list of R104 at `IDX`; none when `IDX > 5`. -/
def Frame.headByte (f : Frame) : Option Byte := (headerBytes f.opc f.len)[f.idx.toNat]?

/-- The byte of `ARG` that a `PAYL` step emits: `IDX = 0 ? ARG[7:0] : ARG[15:8]` (R105; for `IDX` of 2 or more log 14). -/
def Frame.argByte (f : Frame) : Byte := if f.idx = 0 then lowByte f.arg else highByte f.arg

/-- The byte a `PAYL` step gets and the state after getting it; none when the source is `PIN` and the host offers
nothing, which holds the step (R105, R145). -/
def Frame.payloadByte (f : Frame) (s : State) : Option (Byte × State) :=
  match f.src with
  | .fromArg => some (f.argByte, s)
  | .fromPin => s.takePin

end Sys2Proof.Machine
end

