-- ==== Sys2Proof/Machine/Framer.lean ====
section
/-! DEFINITION. The framer at the byte-serial level (42_framer.md R103 to R107): the accept step of its three operations,
which are their meanings in `exec`, and the emit steps of the four phases. The transaction level, R98 to R100, is
Sys2Proof/Machine/Transaction.lean. -/

namespace Sys2Proof.Machine

/-- `FR <- Busy(OPC = op, LEN, SRC, ARG, PHASE = HEAD, IDX = 0, FCRC = 0x00)` and `respond(OK, 0x00)` (R103). -/
def State.startFrame (s : State) (op len : Byte) (src : Src) (arg : Half) : State :=
  (s.setFr (.busy ⟨op, len, src, arg, .head, 0, crcSeed⟩)).respond .ok 0x00

/-- `FRAME_D8 op, d` (R98), its accept step (R103). -/
def execFrameD8 (op d : Byte) (s : State) : Out :=
  accepted (fun s => s.startFrame op 1 .fromArg (byteArg d)) s

/-- `FRAME_D16 op, v` (R99), its accept step (R103). -/
def execFrameD16 (op : Byte) (v : Half) (s : State) : Out :=
  accepted (fun s => s.startFrame op 2 .fromArg v) s

/-- `FRAME_MULTI op, N` (R100), its accept step (R103): rejected when `N > 247`, with nothing taken from `PIN` (R101). -/
def execFrameMulti (op : Byte) (n : Half) (s : State) : Out :=
  accepted (fun s => if maxPayload < n.toNat then s.reject .rejTooLong else s.startFrame op (lowByte n) .fromPin 0) s

/-- Where a `HEAD` step goes after its byte (R104). -/
def Frame.afterHead (f : Frame) : Frame :=
  if f.idx.toNat < 5 then { f with idx := f.idx + 1 }
  else if f.len = 0 then { f with phase := .csum, idx := 0 }
  else { f with phase := .payl, idx := 0 }

/-- Where a `PAYL` step goes after the byte `x` (R105): the checksum takes the byte that is emitted. `IDX + 1` is compared
with `LEN` as a number, without wrapping (R12; log 17). -/
def Frame.afterPayl (f : Frame) (c : Config) (x : Byte) : Frame :=
  let g := { f with fcrc := memRead c .crc (f.fcrc ^^^ x) }
  if f.idx.toNat + 1 < f.len.toNat then { g with idx := f.idx + 1 } else { g with phase := .csum, idx := 0 }

/-- Emit step in phase `HEAD`, the sink being ready (R104). -/
def emitHead (f : Frame) (s : State) : Out :=
  match f.headByte with
  | some x => .next ((s.emit x).setFr (.busy f.afterHead))
  | none => .fault .headIndexOutOfRange

/-- Emit step in phase `PAYL`, the sink being ready (R105). With `SRC = FROM_PIN` and no byte offered it is held. -/
def emitPayl (f : Frame) (s : State) : Out :=
  match f.payloadByte s with
  | some (x, s') => .next ((s'.emit x).setFr (.busy (f.afterPayl s.cfg x)))
  | none => .next s

/-- Emit step in phase `CSUM`, the sink being ready (R106). -/
def emitCsum (f : Frame) (s : State) : Out :=
  .next ((s.emit f.fcrc).setFr (.busy { f with phase := .tail }))

/-- Emit step in phase `TAIL`, the sink being ready (R107). -/
def emitTail (s : State) : Out :=
  .next ((s.emit etx).setFr .idle)

/-- The emit step of `FR = Busy f`: held while the sink is not ready (R15, R147), else by phase. -/
def emitStep (f : Frame) (s : State) : Out :=
  if s.sinkReady then
    match f.phase with
    | .head => emitHead f s
    | .payl => emitPayl f s
    | .csum => emitCsum f s
    | .tail => emitTail s
  else .next s

end Sys2Proof.Machine
end

