-- ==== Sys2Proof/Machine/Mirror.lean ====
section
/-! DEFINITION. The mirror unit: `MIRROR` (41_mirror.md R87). -/

namespace Sys2Proof.Machine

/-- `MIRROR b -> v` (R87): answer `OK` with `MIR_ROM[b]`; nothing else is read or written (R91). -/
def execMirror (b : Byte) (s : State) : Out :=
  accepted (fun s => s.respond .ok (memRead s.cfg .mir b)) s

end Sys2Proof.Machine
end

