-- ==== Sys2Proof/Machine/Dispatch.lean ====
section
/-! DEFINITION. The meaning of each operation: one arm per constructor of `Instr` (R3, R52). -/

namespace Sys2Proof.Machine

def exec (i : Instr) (s : State) : Host.Outcome State Fault Refusal :=
  match i with
  | .crcClr => Sys2Proof.Machine.execCrcClr s
  | .crcUpd b => Sys2Proof.Machine.execCrcUpd b s
  | .crcRd => Sys2Proof.Machine.execCrcRd s
  | .mirror b => Sys2Proof.Machine.execMirror b s
  | .frameD8 op d => Sys2Proof.Machine.execFrameD8 op d s
  | .frameD16 op v => Sys2Proof.Machine.execFrameD16 op v s
  | .frameMulti op n => Sys2Proof.Machine.execFrameMulti op n s

end Sys2Proof.Machine
end

