-- ==== Sys2Proof/Machine/Port.lean ====
section
/-! DEFINITION. The command port and the block's turn: the accept step of a command word (R16, R54 to R56, R125), and the
one step the block can take in a state (R104 to R108, R131, R140, R144). -/

namespace Sys2Proof.Machine

/-- The accept step of a command word that has been taken from the port: decode first (R125); an illegal word is rejected
and changes nothing (R55, R126). -/
def acceptWord (w : CommandWord) (s : State) : Out :=
  match decode w with
  | .op i => exec i s
  | .illegal _ => accepted (fun s => s.reject .rejIllegal) s

/-- `FR = Idle`: accept the word the host presents; with none presented nothing happens (R16). -/
def idleStep (s : State) : Out :=
  match s.cmd with
  | [] => .next s
  | w :: _ => acceptWord w s.popCmd

/-- The block's turn. While `RESET` is asserted it does nothing (R140); in `Idle` it accepts a command, in `Busy` it emits
and accepts none (R16, R108, R144). A step that is not enabled is held: the state stays as it is (R131; log 8). -/
def blockStep (s : State) : Out :=
  if s.resetPin then .next s
  else
    match s.fr with
    | .idle => idleStep s
    | .busy f => emitStep f s

/-- One step of the whole: the move the schedule names, and the block's turn when the schedule is empty (R38; log 2). -/
def scheduledStep (s : State) : Out :=
  match s.env with
  | [] => blockStep s
  | .block :: rest => blockStep { s with env := rest }
  | e :: rest => .next (State.environment { s with env := rest } e)

/-- The state in which the host presents the word `w` first, the port accepts, and the block moves next (log 4). -/
def State.presentNext (s : State) (w : CommandWord) : State :=
  { s with env := .block :: s.env, cmd := w :: s.cmd, fr := .idle, resetPin := false }

end Sys2Proof.Machine
end

