-- ==== Sys2Proof/Machine/Step.lean ====
section
/-! DEFINITION. The step of the machine, and the placing of an instruction where the next step takes it. -/

namespace Sys2Proof.Machine

/-- One step (R38): three outcomes, of which a run from reset meets only the next state. -/
def step (s : State) : Host.Outcome State Fault Refusal := scheduledStep s

/-- `s` with the instruction's word presented on `CMD` and the port ready for it, so that the very next step accepts it. The
block fetches nothing (R12); a program is what the host presents (log 4). -/
def State.withFetchWord (s : State) (nbits w : Nat) : State :=
  s.presentNext (BitVec.ofNat 32 (w % 2 ^ nbits))

end Sys2Proof.Machine
end

