-- ==== Sys2Proof/Machine/Transaction.lean ====
section
/-! DEFINITION. The transaction level (42_framer.md R95 to R102, R114): each operation, with the payload it needs, as one atomic
step. `exec` is the byte-serial level; that the two agree is R109. -/

namespace Sys2Proof.Machine

/-- A frame operation at the transaction level: answer `OK` and emit the whole frame (R98 to R100). -/
def emitFrame (op : Byte) (p : List Byte) (s : State) : Out :=
  accepted (fun s => (s.respond .ok 0x00).emitAll (frameBytes s.cfg op p)) s

/-- One operation as one atomic step. A `FRAME_MULTI` with `N > 247` is rejected (R101); one whose payload is not `N` bytes has
no meaning at this level and is refused (R114; log 10). Operations that emit nothing are the same at both levels. -/
def transact (t : Transaction) (s : State) : Out :=
  match t.op with
  | .crcClr => exec .crcClr s
  | .crcUpd b => exec (.crcUpd b) s
  | .crcRd => exec .crcRd s
  | .mirror b => exec (.mirror b) s
  | .frameD8 op d => emitFrame op [d] s
  | .frameD16 op v => emitFrame op (d16Payload v) s
  | .frameMulti op n =>
    if maxPayload < n.toNat then accepted (fun s => s.reject .rejTooLong) s
    else if t.payload.length = n.toNat then emitFrame op t.payload s
    else .refused .payloadLengthMismatch

/-- A program of transactions, one after the other, up to the first that does not answer a next state. -/
def transactAll : List Transaction → State → Out
  | [], s => .next s
  | t :: ts, s =>
    match transact t s with
    | .next s' => transactAll ts s'
    | .fault r => .fault r
    | .refused r => .refused r

/-- The number of block steps of an operation at the byte-serial level: 1, and for an accepted frame with `n` payload bytes one
accept step and `n + 8` emit steps (R108, R151). -/
def instrSteps : Instr → Nat
  | .crcClr => 1
  | .crcUpd _ => 1
  | .crcRd => 1
  | .mirror _ => 1
  | .frameD8 _ _ => 10
  | .frameD16 _ _ => 11
  | .frameMulti _ n => if maxPayload < n.toNat then 1 else n.toNat + 9

end Sys2Proof.Machine
end

