-- ==== Sys2Proof/Machine/Pseudo.lean ====
section
/-! DEFINITION. The pseudo-operations, each the sequence of operations it expands to (30_encoding.md R66), and the byte values
of the printer opcodes the source lists (R62). -/

namespace Sys2Proof.Machine

/-- The opcode byte of a printer opcode (R62). -/
def printerOpcode : PrinterOpcode → Byte
  | .paperRetract => 0xA0
  | .paperFeed => 0xA1
  | .imageRow => 0xA2
  | .deviceState => 0xA3
  | .dpi => 0xA4
  | .latticeControl => 0xA6
  | .updateDevice => 0xA9
  | .energy => 0xAF
  | .speed => 0xBD
  | .drawingMode => 0xBE

/-- `CHECKSUM b0 ... b(k-1)` (R77): `CRC_CLR`, a `CRC_UPD` per byte, `CRC_RD`. -/
def checksumOps (bs : List Byte) : List Instr := .crcClr :: (bs.map .crcUpd ++ [.crcRd])

/-- `MIRROR_LINE b0 ... b(k-1)` (R88): a `MIRROR` per byte. -/
def mirrorLineOps (bs : List Byte) : List Instr := bs.map .mirror

/-- Operations that take no payload, as transactions. -/
def bareTransactions (is : List Instr) : List Transaction := is.map (fun i => ⟨i, []⟩)

/-- `IMAGE_ROW b0 ... b(k-1)` (R110): mirror the line, then frame the mirrored bytes with opcode `0xA2`. R110 gives it for
`k <= 247`. DESIGN CHOICE (log 18): for `k` of 65536 or more, which the 16-bit `N` cannot carry, `N` is `k` modulo `2^16`. -/
def imageRow (bs : List Byte) : List Transaction :=
  bareTransactions (mirrorLineOps bs) ++
    [⟨.frameMulti (printerOpcode .imageRow) (BitVec.ofNat 16 bs.length), bs.map rev8⟩]

/-- `DEVICE_STATE d` (R66). -/
def deviceState (d : Byte) : List Transaction := bareTransactions [.frameD8 (printerOpcode .deviceState) d]

/-- `ENERGY v` (R66). -/
def energyLevel (v : Half) : List Transaction := bareTransactions [.frameD16 (printerOpcode .energy) v]

/-- `LATTICE p0 ... p10` (R66): a `FRAME_MULTI` of eleven bytes, whose values the source does not give. -/
def lattice (p : Vector Byte 11) : List Transaction :=
  [⟨.frameMulti (printerOpcode .latticeControl) 0x000B, p.toList⟩]

/-- The command words a host presents on `CMD` for these transactions, in order (R16). -/
def commandWords (ts : List Transaction) : List CommandWord := ts.map (fun t => encode t.op)

/-- The bytes a host offers on `PIN` for these transactions, in order (R14, R114). -/
def payloadBytes (ts : List Transaction) : List Byte := ts.flatMap (fun t => t.payload)

/-- The block steps these transactions take at the byte-serial level (R108, R151). -/
def programSteps (ts : List Transaction) : Nat := (ts.map (fun t => instrSteps t.op)).sum

end Sys2Proof.Machine
end

