-- ==== Sys2Proof/Safety.lean ====
section
/-! DEFINITION. The terms claims are stated in: runs and their observation (70_reset_and_hazards.md R153), when the block has a
step to take (R131), and the invariant of the block (10_state.md R22) with what it says of `OUT` (42_framer.md R113). -/

namespace Sys2Proof.Machine

/-- `k` steps of the machine, up to the first that does not answer a next state. -/
def runSteps (k : Nat) (s : State) : Out := Sys2Proof.core.run k s

/-- The observation of a run: the response words in order, and the history `OUT` (R153). -/
def State.observation (s : State) : Observation := ⟨s.rsp, s.out⟩

/-- The command word that an entry of the schedule is still to present, if it is such an entry (R16; log 2). -/
def EnvEvent.presentedWord : EnvEvent → Option CommandWord
  | .block => none
  | .present w => some w
  | .withdrawCmd => none
  | .offer _ => none
  | .withdrawPin => none
  | .sink _ => none
  | .reset _ => none

/-- The words of the run that are not yet accepted, in order: those the host presents and those it is still to present
(R153; log 4). DESIGN CHOICE (log 19): a word that the host has withdrawn belongs to the run no longer. -/
def State.wordsToCome (s : State) : List CommandWord := s.cmd ++ s.env.filterMap EnvEvent.presentedWord

/-- A run is over when every word has been accepted and answered and `FR = Idle` (R153): none is presented, and none stands
in the schedule to be presented. A withdrawn word is not waited for (DESIGN CHOICE, log 19). -/
def State.runIsOver (s : State) : Bool := s.wordsToCome.isEmpty && !s.busy

/-- The frame waits for a payload byte that the host does not offer (R131(b), R145). -/
def Frame.starved (f : Frame) (s : State) : Bool :=
  f.phase == .payl && f.src == .fromPin && s.pin.isEmpty

/-- The block has a step to take: `RESET` is not asserted, and in `Idle` a word is presented, in `Busy` the sink is ready and the
framer is not starved (R104 to R107, R131, R140). -/
def State.blockEnabled (s : State) : Bool :=
  !s.resetPin &&
    match s.fr with
    | .idle => !s.cmd.isEmpty
    | .busy f => s.sinkReady && !f.starved s

/-- The payload of a frame that gets it from `ARG`: its first `LEN` bytes, low byte first (R61, R105). -/
def Frame.argPayload (f : Frame) : List Byte := (d16Payload f.arg).take f.len.toNat

/-- The bytes of a frame that have been emitted, when the payload bytes among them are `sofar`. -/
def Frame.emitted (f : Frame) (sofar : List Byte) : List Byte :=
  match f.phase with
  | .head => (headerBytes f.opc f.len).take f.idx.toNat
  | .payl => headerBytes f.opc f.len ++ sofar
  | .csum => headerBytes f.opc f.len ++ sofar
  | .tail => headerBytes f.opc f.len ++ sofar ++ [f.fcrc]

/-- How many payload bytes of the frame are still to be emitted. -/
def Frame.missing (f : Frame) : Nat :=
  match f.phase with
  | .head => f.len.toNat
  | .payl => f.len.toNat - f.idx.toNat
  | .csum => 0
  | .tail => 0

/-- How many emit steps the frame still takes (R108). -/
def Frame.stepsLeft (f : Frame) : Nat :=
  match f.phase with
  | .head => (6 - f.idx.toNat) + f.len.toNat + 2
  | .payl => (f.len.toNat - f.idx.toNat) + 2
  | .csum => 2
  | .tail => 1

/-- The invariant of a frame in progress whose payload bytes emitted so far are `sofar` (R13, R22). -/
structure Frame.Inv (c : Config) (f : Frame) (sofar : List Byte) : Prop where
  /-- `LEN <= 247`. -/
  len_le : f.len.toNat ≤ maxPayload
  /-- `FCRC` is the checksum of the payload bytes emitted so far. -/
  fcrc_eq : f.fcrc = checksum c sofar
  /-- `SRC = FROM_ARG` implies `LEN` is 1 or 2, and `LEN = 1` implies `ARG[15:8] = 0`; the payload is that of `ARG`. -/
  from_arg : f.src = .fromArg → (f.len = 1 ∧ highByte f.arg = 0 ∨ f.len = 2) ∧ sofar <+: f.argPayload
  /-- `ARG` is zero when `SRC = FROM_PIN` (R13). -/
  from_pin : f.src = .fromPin → f.arg = 0
  /-- `IDX` in each phase. -/
  at_phase : match f.phase with
    | .head => f.idx.toNat ≤ 5 ∧ sofar = []
    | .payl => sofar.length = f.idx.toNat ∧ f.idx.toNat < f.len.toNat
    | .csum => sofar.length = f.len.toNat ∧ f.idx = 0
    | .tail => sofar.length = f.len.toNat ∧ f.idx = 0

/-- Opcodes and payloads that a frame can have. -/
def Framable (fs : List (Byte × List Byte)) : Prop := ∀ f ∈ fs, f.2.length ≤ maxPayload

/-- A response word the block can produce: status `0x00`, or `0x01` or `0x02` with value `0x00` (R56). -/
def responseValid (q : ResponseWord) : Bool :=
  highByte q == 0x00 || ((highByte q == 0x01 || highByte q == 0x02) && lowByte q == 0x00)

/-- `out` is a sequence of whole frames and then one that was cut short, or none (R142). -/
def CutHistory (c : Config) (out : List Byte) : Prop :=
  ∃ fs op p cut, Framable fs ∧ p.length ≤ maxPayload ∧ out = framesBytes c fs ++ cut ∧
    cut <+: frameBytes c op p ∧ cut.length < p.length + frameOverhead

/-- The invariant of the block (R22), with what it keeps true while `RESET` is asserted and of the records. These parts are not
R22's: they go by R56, R140 and R142 under the model's choices of logs 5 and 6. -/
structure State.Inv (s : State) : Prop where
  /-- While `RESET` is asserted the block has its reset values (log 5) and nothing has been observed since (log 6; R140). -/
  in_reset : s.resetPin = true → s.crc = crcSeed ∧ s.fr = .idle ∧ s.rsp = [] ∧ s.out = []
  /-- `OUT` is whole frames, and in `Busy` then the emitted bytes of the frame in progress (R22, R113). -/
  history : ∃ fs, Framable fs ∧
    match s.fr with
    | .idle => s.out = framesBytes s.cfg fs
    | .busy f => ∃ sofar, f.Inv s.cfg sofar ∧ s.out = framesBytes s.cfg fs ++ f.emitted sofar
  /-- Every response is one the block can produce (R56). -/
  responses : ∀ q ∈ s.rsp, responseValid q = true
  /-- Each history that a reset ended has at most one frame cut short, its last (R142; the split is log 6). -/
  earlier : ∀ o ∈ s.past, CutHistory s.cfg o.out ∧ ∀ q ∈ o.rsp, responseValid q = true

/-- The byte that a transaction feeds to `CRC`, if it is a `CRC_UPD` (R75, R149). -/
def crcUpdByte (t : Transaction) : Option Byte :=
  match t.op with
  | .crcClr => none
  | .crcUpd b => some b
  | .crcRd => none
  | .mirror _ => none
  | .frameD8 _ _ => none
  | .frameD16 _ _ => none
  | .frameMulti _ _ => none

/-- The opcode and the payload of the frame that a transaction emits, if it is an accepted frame operation (R98 to R101). -/
def acceptedFrame (t : Transaction) : Option (Byte × List Byte) :=
  match t.op with
  | .crcClr => none
  | .crcUpd _ => none
  | .crcRd => none
  | .mirror _ => none
  | .frameD8 op d => some (op, [d])
  | .frameD16 op v => some (op, d16Payload v)
  | .frameMulti op n => if maxPayload < n.toNat then none else some (op, t.payload)

/-- The number of one bits of a byte (R89). -/
def oneBits (b : Byte) : Nat := ((List.range 8).filter (fun i => b.getLsbD i)).length

end Sys2Proof.Machine
end

