-- ==== Sys2Proof/Certificates/Slice0/Obligations.lean ====
section
/-! DEFINITION. The statements about the model, each from the rules of spec/ that its docstring names. A clause marked "under D1"
has the hypothesis that the configuration is `Config.d1`, the table of R71 (log 1); all others hold for every table. -/

open Sys2Proof Sys2Proof.Machine

/-! ### Encoding (30_encoding.md) -/

/-- Words written out from the patterns of R53, one for each operation at least, with what they stand for, and words of
95_test_vectors.md 2.4 that are illegal. -/
def Obligations.SpecWordsDecode : Prop :=
  decode 0x10000000 = .op .crcClr ∧
  decode 0x20000012 = .op (.crcUpd 0x12) ∧
  decode 0x30000000 = .op .crcRd ∧
  decode 0x400000A2 = .op (.mirror 0xA2) ∧
  decode 0x80A30001 = .op (.frameD8 0xA3 0x01) ∧
  decode 0x90AF7FFF = .op (.frameD16 0xAF 0x7FFF) ∧
  decode 0xA0A200F7 = .op (.frameMulti 0xA2 0x00F7) ∧
  decode 0xA0A2FFFF = .op (.frameMulti 0xA2 0xFFFF) ∧
  decode 0x00000000 = .illegal .unassignedSel ∧
  decode 0xA1A200F8 = .illegal .reservedNonzero ∧
  decode 0x20010012 = .illegal .opcNonzero ∧
  decode 0x30000001 = .illegal .argNonzero ∧
  decode 0x80A30101 = .illegal .argHighNonzero

/-- Decode and encode agree in both directions: the words of an operation are exactly its encoding (R53, R54). -/
def Obligations.DecodeIffEncode : Prop :=
  ∀ (w : CommandWord) (i : Instr), decode w = .op i ↔ w = encode i

/-- R54. Decoding is total: a word matches at most one row of R53; the word of a row is that row's operation with the
operands of its fields; a word that matches no row is illegal. -/
def Obligations.DecodeIsTotalAndDisjoint : Prop :=
  opcodeRows.Pairwise (fun a b => ∀ w, a.isWord w = true → b.isWord w = false) ∧
  ∀ w : CommandWord,
    (∀ r ∈ opcodeRows, r.isWord w = true → decode w = .op (r.operation w)) ∧
    ((∀ r ∈ opcodeRows, r.isWord w = false) → ∃ why, decode w = .illegal why)

/-- R123. `REJ_ILLEGAL` covers exactly: the nine unassigned `SEL`; `RSV` not 0; `OPC` not 0 for `CRC_CLR`, `CRC_UPD`,
`CRC_RD`, `MIRROR`; `ARG` not 0 for `CRC_CLR`, `CRC_RD`; `ARG[15:8]` not 0 for `CRC_UPD`, `MIRROR`, `FRAME_D8`. -/
def Obligations.RejIllegalCovers : Prop :=
  ∀ (w : CommandWord) (s : State), s.canAccept = true →
    ((cmdSel w ∈ [0x0#4, 0x5#4, 0x6#4, 0x7#4, 0xB#4, 0xC#4, 0xD#4, 0xE#4, 0xF#4] ∨
        cmdRsv w ≠ 0 ∨
        (cmdSel w ∈ [0x1#4, 0x2#4, 0x3#4, 0x4#4] ∧ cmdOpc w ≠ 0) ∨
        (cmdSel w ∈ [0x1#4, 0x3#4] ∧ cmdArg w ≠ 0) ∨
        (cmdSel w ∈ [0x2#4, 0x4#4, 0x8#4] ∧ highByte (cmdArg w) ≠ 0)) ↔
      acceptWord w s = .next { s with rsp := s.rsp ++ [0x0100] })

/-- R55. An illegal word is accepted like any other, only when `FR = Idle`; it is rejected with `REJ_ILLEGAL`, changes no
state and emits nothing. A word that is not illegal is an operation with its effect: no hints, no no-operations, no custom
space. -/
def Obligations.IllegalWordChangesNothing : Prop :=
  ∀ (w : CommandWord) (rest : List CommandWord) (s : State), s.cmd = w :: rest → s.resetPin = false →
    (CommandWord.legal w = false → s.fr = .idle →
      blockStep s = .next { s with cmd := rest, rsp := s.rsp ++ [0x0100] }) ∧
    (∀ f, s.fr = .busy f → ∀ t, blockStep s = .next t → t.cmd = w :: rest ∧ t.rsp = s.rsp) ∧
    (CommandWord.legal w = true → s.fr = .idle →
      ∃ i, w = encode i ∧ blockStep s = exec i { s with cmd := rest })

/-- R56, R121. Every accepted command word gets exactly one response word at its accept step, `STATUS` in the high byte and
`VALUE` in the low byte; `STATUS` is `0x01` for an illegal word, `0x02` for `FRAME_MULTI` with `N > 247`, `0x00` for every
other; `VALUE` is `CRC` for `CRC_RD`, `rev8(b)` for `MIRROR`, `0x00` for every other operation and every rejection. `OK` for
a frame operation means that the frame is accepted, not that its bytes have left: `BUSY` is 1 and nothing is emitted. -/
def Obligations.OneResponsePerCommand : Prop :=
  ∀ (w : CommandWord) (s : State), s.canAccept = true →
    ∃ t q, acceptWord w s = .next t ∧ t.rsp = s.rsp ++ [q] ∧ t.out = s.out ∧
      match decode w with
      | .illegal _ => highByte q = 0x01 ∧ lowByte q = 0x00 ∧ t.busy = false
      | .op .crcClr => highByte q = 0x00 ∧ lowByte q = 0x00 ∧ t.busy = false
      | .op (.crcUpd _) => highByte q = 0x00 ∧ lowByte q = 0x00 ∧ t.busy = false
      | .op .crcRd => highByte q = 0x00 ∧ lowByte q = s.crc ∧ t.busy = false
      | .op (.mirror b) => highByte q = 0x00 ∧ lowByte q = rev8 b ∧ t.busy = false
      | .op (.frameD8 _ _) => highByte q = 0x00 ∧ lowByte q = 0x00 ∧ t.busy = true
      | .op (.frameD16 _ _) => highByte q = 0x00 ∧ lowByte q = 0x00 ∧ t.busy = true
      | .op (.frameMulti _ n) =>
        lowByte q = 0x00 ∧
          if 247 < n.toNat then highByte q = 0x02 ∧ t.busy = false else highByte q = 0x00 ∧ t.busy = true

/-- R125. At most one cause per word, decoding first: an illegal word is `REJ_ILLEGAL` whatever its `N`; only a legal
`FRAME_MULTI` is tested for `N > 247`. `0xA1A200F8` is `REJ_ILLEGAL` and `0xA0A200F8` is `REJ_TOO_LONG`. -/
def Obligations.DecodingComesFirst : Prop :=
  ∀ s : State, s.canAccept = true →
    (∀ w, CommandWord.legal w = false → acceptWord w s = .next { s with rsp := s.rsp ++ [0x0100] }) ∧
    (∀ w, CommandWord.legal w = true →
      (acceptWord w s = .next { s with rsp := s.rsp ++ [0x0200] } ↔ cmdSel w = 0xA ∧ 247 < (cmdArg w).toNat)) ∧
    acceptWord 0xA1A200F8 s = .next { s with rsp := s.rsp ++ [0x0100] } ∧
    acceptWord 0xA0A200F8 s = .next { s with rsp := s.rsp ++ [0x0200] }

/-! ### Steps -/

/-- The step of a word that decodes runs that instruction: on the block's turn, with the word presented and the port accepting,
the step is `exec` of the instruction on the state from which the word and the turn are taken away (R16, R54; the schedule is
log 2). And the model's own placing of an instruction (log 4): the step after `withFetchWord` runs the instruction of the word,
on the state made ready to accept it. And the model's own reading (log 11, DEDUCED) of a call that no rule describes: where the
port does not accept, in `Busy` or while `RESET` is asserted, `exec` of every instruction leaves the state as it is. -/
def Obligations.StepRunsDecodedInstruction : Prop :=
  (∀ (s : State) (w : CommandWord) (i : Instr) (rest : List CommandWord), s.canAccept = true → s.cmd = w :: rest →
    decode w = .op i →
    (s.env = [] → step s = exec i { s with cmd := rest }) ∧
    (∀ es, s.env = .block :: es → step s = exec i { s with cmd := rest, env := es })) ∧
  (∀ (s : State) (w : Nat) (i : Instr), decodeTableWord 32 w = some i →
    step (s.withFetchWord 32 w) = exec i { s with fr := .idle, resetPin := false }) ∧
  (∀ (s : State) (i : Instr), s.resetPin = true ∨ s.busy = true → exec i s = .next s)

/-- R16. The block accepts a command word only in `Idle`, and while `Busy` the word stays with the host; at the acceptance of
every word there is exactly one response word, and it is always taken. -/
def Obligations.CommandPortAcceptsOnlyInIdle : Prop :=
  ∀ s t : State, blockStep s = .next t →
    (∀ f, s.fr = .busy f → t.cmd = s.cmd ∧ t.rsp = s.rsp) ∧
    (s.canAccept = true → s.cmd = [] → t = s) ∧
    (∀ w rest, s.canAccept = true → s.cmd = w :: rest → t.cmd = rest ∧ ∃ q, t.rsp = s.rsp ++ [q])

/-- R144. A word presented while `FR = Busy` is held, whichever of the seven operations it is: not rejected, not dropped, not
queued inside, for the block's turn is the one it would be with any other words presented; the framer's `TAIL` step returns
`FR` to `Idle`, and the word is then accepted as usual. -/
def Obligations.CommandWhileBusyIsHeld : Prop :=
  ∀ (s : State) (f : Frame) (w : CommandWord) (rest : List CommandWord), s.resetPin = false → s.fr = .busy f →
    s.cmd = w :: rest →
    (∀ t, blockStep s = .next t → t.cmd = w :: rest ∧ t.rsp = s.rsp ∧
      ∀ other, blockStep { s with cmd := other } = .next { t with cmd := other }) ∧
    (f.phase = .tail → s.sinkReady = true →
      ∃ t, blockStep s = .next t ∧ t.fr = .idle ∧ blockStep t = acceptWord w { t with cmd := rest })

/-- R14. A byte is taken from `PIN` only in an emit step of phase `PAYL` with `SRC = FROM_PIN`, one byte, the one the host offers
first, and that step emits it; without a byte offered the step is not enabled; at every other time the offered bytes stay
with the host, and the block does not look at them. In such a step it does not look beyond the first. -/
def Obligations.PinIsTakenOnlyByPayl : Prop :=
  ∀ (s : State) (p : List Byte),
    ((∃ f, s.fr = .busy f ∧ f.phase = .payl ∧ f.src = .fromPin) →
      blockStep { s with pin := [] } = .next { s with pin := [] } ∧
      ∀ b q t, blockStep { s with pin := b :: q } = .next t →
        (t = { s with pin := b :: q } ∨ (t.pin = q ∧ t.out = s.out ++ [b])) ∧
        ∃ t', blockStep { s with pin := b :: p } = .next t' ∧ t'.crc = t.crc ∧ t'.fr = t.fr ∧ t'.out = t.out ∧
          t'.rsp = t.rsp) ∧
    ((¬ ∃ f, s.fr = .busy f ∧ f.phase = .payl ∧ f.src = .fromPin) → ∀ t, blockStep s = .next t →
      t.pin = s.pin ∧ blockStep { s with pin := p } = .next { t with pin := p })

/-- R15. In `Busy` a turn of the block leaves the state as it is or hands exactly one byte to a ready sink and appends it to the
history `OUT`; with `RESET` released, the sink ready and the payload byte it may need offered, it emits that byte. Not in
`Busy` it does not touch the history. While the sink is not ready, for any number of steps, nothing is emitted. -/
def Obligations.OutGrowsOnlyByEmitSteps : Prop :=
  ∀ s t : State, blockStep s = .next t →
    (s.busy = true → t = s ∨ (s.sinkReady = true ∧ ∃ b, t.out = s.out ++ [b])) ∧
    (∀ f, s.fr = .busy f → s.resetPin = false → s.sinkReady = true →
      ¬ (f.phase = .payl ∧ f.src = .fromPin ∧ s.pin = []) → ∃ b, t.out = s.out ++ [b]) ∧
    (s.busy = false → t.out = s.out) ∧
    (s.env = [] → s.busy = true → s.sinkReady = false → ∀ k, runSteps k s = .next s)

/-- R147. The sink may stall without bound: however many turns of the block fall into the stall, the step after it is the
step there would have been without it, so the byte is held until it is taken, and none is dropped or repeated. -/
def Obligations.SinkStallLosesNothing : Prop :=
  ∀ (s : State) (k : Nat), s.busy = true → s.sinkReady = false →
    runSteps (k + 2) { s with env := List.replicate k .block ++ [.sink true, .block] } =
      blockStep { s with sinkReady := true, env := [] }

/-- R131. The ways not to make progress, in `Busy`: (a) the sink is not ready, lifted by the sink becoming ready; (b) phase
`PAYL` of a `FRAME_MULTI` and no payload byte offered, lifted by the host offering one. In both the block has no step that
leaves the state. Lifted means that the block's next turn emits a byte, in (a) for a frame that has its invariant and is not
also held by (b). In `Idle` it is never stuck: every command word has an accept step. -/
def Obligations.HeldStepsAndWhatLiftsThem : Prop :=
  ∀ s : State, s.resetPin = false →
    (∀ f, s.fr = .busy f → s.sinkReady = false →
      blockStep s = .next s ∧ s.busy = true ∧
        (f.starved s = false → (s.environment (.sink true)).blockEnabled = true ∧
          ∀ sofar, f.Inv s.cfg sofar →
            ∃ t b, blockStep (s.environment (.sink true)) = .next t ∧ t.out = s.out ++ [b])) ∧
    (∀ f, s.fr = .busy f → f.phase = .payl → f.src = .fromPin → s.pin = [] →
      blockStep s = .next s ∧ s.busy = true ∧
        (s.sinkReady = true → ∀ b, (s.environment (.offer b)).blockEnabled = true ∧
          ∃ t, blockStep (s.environment (.offer b)) = .next t ∧ t.out = s.out ++ [b])) ∧
    (∀ w rest, s.fr = .idle → s.cmd = w :: rest →
      ∃ t q, blockStep s = .next t ∧ t.cmd = rest ∧ t.rsp = s.rsp ++ [q])

/-! ### The CRC unit (40_crc.md) -/

/-- R72, R73. `crc_step` is one table lookup at `s ^ b`; `checksum` starts at the seed `0x00` and takes the bytes left to
right, so that the empty sequence has checksum `0x00`, one byte its table entry, and a checksum can be continued from where
it stopped. -/
def Obligations.ChecksumIsTableLookup : Prop :=
  ∀ (c : Config) (s b : Byte) (bs u v : List Byte),
    crcStep c s b = c.crcTable.get (s ^^^ b).toFin ∧
    checksum c bs = bs.foldl (crcStep c) 0x00 ∧
    checksum c [] = 0x00 ∧
    checksum c [b] = c.crcTable.get b.toFin ∧
    checksum c (u ++ v) = v.foldl (crcStep c) (checksum c u)

/-- R74. `CRC_CLR`, word `0x10000000`: `CRC <- 0x00`, response `OK, 0x00`, nothing else. `REJ_ILLEGAL` and `CRC` unchanged if
any of `W[27:0]` is not 0. Two in a row equal one. -/
def Obligations.CrcClrLoadsSeed : Prop :=
  ∀ s : State, s.canAccept = true →
    exec .crcClr s = .next { s with crc := 0x00, rsp := s.rsp ++ [0x0000] } ∧
    acceptWord 0x10000000 s = exec .crcClr s ∧
    (∀ w : CommandWord, cmdSel w = 0x1 → w.extractLsb' 0 28 ≠ 0 →
      acceptWord w s = .next { s with rsp := s.rsp ++ [0x0100] }) ∧
    (∀ t, exec .crcClr s = .next t → exec .crcClr t = .next { t with rsp := t.rsp ++ [0x0000] })

/-- R75. `CRC_UPD b`, word `0x20000000 | b`: `CRC <- CRC_TABLE[CRC ^ b]`, response `OK, 0x00`, nothing else. `REJ_ILLEGAL`
and `CRC` unchanged if `W[27:8]` is not 0. `b = 0x00` gives `CRC_TABLE[CRC]`, `b = CRC` gives `CRC_TABLE[0x00]`. Under D1:
the only values that `b = 0x00` leaves are `0x00` and `0xFD`, `CRC_TABLE[0x00] = 0x00`, and the two steps of the rule's
example. -/
def Obligations.CrcUpdStepsOnce : Prop :=
  ∀ (b : Byte) (s : State), s.canAccept = true →
    exec (.crcUpd b) s =
      .next { s with crc := s.cfg.crcTable.get (s.crc ^^^ b).toFin, rsp := s.rsp ++ [0x0000] } ∧
    acceptWord (0x20000000#32 ||| b.setWidth 32) s = exec (.crcUpd b) s ∧
    (∀ w : CommandWord, cmdSel w = 0x2 → w.extractLsb' 8 20 ≠ 0 →
      acceptWord w s = .next { s with rsp := s.rsp ++ [0x0100] }) ∧
    (∀ t, exec (.crcUpd 0x00) s = .next t → t.crc = s.cfg.crcTable.get s.crc.toFin) ∧
    (∀ t, exec (.crcUpd s.crc) s = .next t → t.crc = s.cfg.crcTable.get 0) ∧
    (s.cfg = Config.d1 →
      (∀ t, exec (.crcUpd 0x00) s = .next t → (t.crc = s.crc ↔ s.crc = 0x00 ∨ s.crc = 0xFD)) ∧
      s.cfg.crcTable.get 0 = 0x00 ∧
      (∀ t, s.crc = 0x00 → exec (.crcUpd 0x12) s = .next t → t.crc = 0x7E) ∧
      (∀ t, s.crc = 0x7E → exec (.crcUpd 0x34) s = .next t → t.crc = 0xF1))

/-- R76. `CRC_RD -> v`, word `0x30000000`: response `OK, CRC`; nothing is written, and it may be repeated. `REJ_ILLEGAL` with
`VALUE = 0x00` if any of `W[27:0]` is not 0. Straight after reset it returns `0x00`; with `CRC = 0xF1` the response is
`0x00F1`. -/
def Obligations.CrcRdReturnsRegister : Prop :=
  ∀ s : State, s.canAccept = true →
    (∃ q, exec .crcRd s = .next { s with rsp := s.rsp ++ [q] } ∧ highByte q = 0x00 ∧ lowByte q = s.crc ∧
      ∀ t, exec .crcRd s = .next t → exec .crcRd t = .next { t with rsp := t.rsp ++ [q] }) ∧
    acceptWord 0x30000000 s = exec .crcRd s ∧
    (∀ w : CommandWord, cmdSel w = 0x3 → w.extractLsb' 0 28 ≠ 0 →
      acceptWord w s = .next { s with rsp := s.rsp ++ [0x0100] }) ∧
    exec .crcRd State.reset = .next { State.reset with rsp := [0x0000] } ∧
    (s.crc = 0xF1 → exec .crcRd s = .next { s with rsp := s.rsp ++ [0x00F1] })

/-- The pseudo-operation `CHECKSUM b0 ... b(k-1) -> v`: its `k + 2` words, presented to a block that accepts, leave `CRC =
checksum` of the bytes and answer `OK, 0x00` to each word but the last, which answers `OK, checksum`. The spec derives this
(R77) from R73 to R76. -/
def Obligations.ChecksumSequenceComputesChecksum : Prop :=
  ∀ (bs : List Byte) (s : State), s.canAccept = true → s.env = [] →
    ∃ q, highByte q = 0x00 ∧ lowByte q = checksum s.cfg bs ∧
      runSteps (bs.length + 2) { s with cmd := (checksumOps bs).map encode ++ s.cmd } =
        .next { s with crc := checksum s.cfg bs, rsp := s.rsp ++ List.replicate (bs.length + 1) 0x0000 ++ [q] }

/-- R149. `CRC` is one accumulator: after a `CRC_CLR`, whatever transactions without a further `CRC_CLR` follow, `CRC` is the
checksum of the merged sequence of their `CRC_UPD` bytes, so that interleaved users get that; frame operations, `MIRROR` and
`CRC_RD` in between do no harm. -/
def Obligations.CrcIsChecksumOfMergedUpdates : Prop :=
  ∀ (ts : List Transaction) (s : State), s.canAccept = true → (∀ t ∈ ts, t.wf = true ∧ t.op ≠ .crcClr) →
    ∃ s', transactAll (⟨.crcClr, []⟩ :: ts) s = .next s' ∧ s'.crc = checksum s.cfg (ts.filterMap crcUpdByte)

/-- R11. `CRC` is written by `CRC_CLR` (to `0x00`), `CRC_UPD` and reset, and read by `CRC_UPD` and `CRC_RD`. No other operation
and no emit step reads or writes it. -/
def Obligations.CrcAccess : Prop :=
  (∀ s t : State, step s = .next t → t.crc ≠ s.crc →
    (∃ l rest, s.env = .reset l :: rest ∧ t.crc = 0x00) ∨
    (∃ w rest, s.cmd = w :: rest ∧ s.canAccept = true ∧
      ((decode w = .op .crcClr ∧ t.crc = 0x00) ∨
        ∃ b, decode w = .op (.crcUpd b) ∧ t.crc = s.cfg.crcTable.get (s.crc ^^^ b).toFin))) ∧
  (∀ s : State, s.canAccept = true →
    (∃ t, exec .crcClr s = .next t ∧ t.crc = 0x00) ∧
    (∀ b, ∃ t, exec (.crcUpd b) s = .next t ∧ t.crc = s.cfg.crcTable.get (s.crc ^^^ b).toFin) ∧
    (∃ t q, exec .crcRd s = .next t ∧ t.rsp = s.rsp ++ [q] ∧ lowByte q = s.crc) ∧
    ((s.driveReset true).driveReset false).crc = 0x00) ∧
  (∀ (s t : State) (v : Byte) (i : Instr), i ≠ .crcClr → i ≠ .crcRd → (∀ b, i ≠ .crcUpd b) → exec i s = .next t →
    t.crc = s.crc ∧ exec i { s with crc := v } = .next { t with crc := v }) ∧
  (∀ (s t : State) (v : Byte), s.busy = true → blockStep s = .next t →
    t.crc = s.crc ∧ blockStep { s with crc := v } = .next { t with crc := v })

/-- Laws of the checksum for every table (derived in the spec, R80): a payload followed by its own checksum has checksum
`CRC_TABLE[0x00]`; and under D1 (R81(a), (e)) that is `0x00`, leading zero bytes change nothing, and the nine digits have
checksum `0xF4`. Every entry of the D1 table is what the shift-and-exclusive-or generator leaves (R78, the spec's general
knowledge; log 1), and the two entries the source lets one read off are there (R79). -/
def Obligations.ChecksumLaws : Prop :=
  (∀ (c : Config) (p : List Byte), checksum c (p ++ [checksum c p]) = c.crcTable.get 0) ∧
  (∀ (p : List Byte) (k : Nat), checksum Config.d1 (p ++ [checksum Config.d1 p]) = 0x00 ∧
    checksum Config.d1 (List.replicate k 0x00 ++ p) = checksum Config.d1 p) ∧
  checksum Config.d1 [0x31, 0x32, 0x33, 0x34, 0x35, 0x36, 0x37, 0x38, 0x39] = 0xF4 ∧
  (∀ i : Byte, memRead Config.d1 .crc i = crcGenerator i) ∧
  memRead Config.d1 .crc 0x10 = 0x70 ∧ memRead Config.d1 .crc 0x00 = 0x00

/-- Under D1 the checksum is linear over payloads of equal length (derived in the spec, R81(c); log 1). -/
def Obligations.D1ChecksumIsLinear : Prop :=
  ∀ p q : List Byte, p.length = q.length →
    checksum Config.d1 (List.zipWith (fun a b => a ^^^ b) p q) = checksum Config.d1 p ^^^ checksum Config.d1 q

/-- Under D1 one step is a bijection in each argument, and two payloads of equal length that differ in exactly one byte have
different checksums (derived in the spec, R81(b); log 1). -/
def Obligations.D1OneByteErrorIsSeen : Prop :=
  (∀ b : Byte, Function.Bijective (fun s => crcStep Config.d1 s b)) ∧
  (∀ s : Byte, Function.Bijective (fun b => crcStep Config.d1 s b)) ∧
  (∀ (u v : List Byte) (a b : Byte), a ≠ b →
    checksum Config.d1 (u ++ a :: v) ≠ checksum Config.d1 (u ++ b :: v))

/-- The checksum is not order-sensitive in general (derived in the spec, R82; 90_conflicts.md C5; log 1): under D1 two bytes
may be exchanged exactly when they differ by `0x00` or `0xFD`. -/
def Obligations.D1OrderSensitivity : Prop :=
  (∀ a c : Byte, checksum Config.d1 [a, c] = checksum Config.d1 [c, a] ↔ a ^^^ c = 0x00 ∨ a ^^^ c = 0xFD) ∧
  checksum Config.d1 [0x00, 0xFD] = 0xFD ∧ checksum Config.d1 [0xFD, 0x00] = 0xFD ∧
  checksum Config.d1 [0x01, 0x02] = 0x1B ∧ checksum Config.d1 [0x02, 0x01] = 0x2D

/-! ### The mirror unit (41_mirror.md) -/

/-- R85. `rev8(b)` is the byte whose bit `i` is bit `7 - i` of `b`; and the table `MIR_ROM` holds `rev8`. -/
def Obligations.Rev8ReversesBits : Prop :=
  ∀ b : Byte, (∀ i < 8, (rev8 b).getLsbD i = b.getLsbD (7 - i)) ∧ mirRom.get b.toFin = rev8 b

/-- R87. `MIRROR b -> v`, word `0x40000000 | b`: response `OK, rev8(b)`; nothing is written, emitted or taken. `REJ_ILLEGAL`
with `VALUE = 0x00` if `W[27:8]` is not 0. The corner cases, the 16 bytes that are their own mirror image, and the example.
-/
def Obligations.MirrorReversesByte : Prop :=
  (∀ (b : Byte) (s : State), s.canAccept = true →
    (∃ q, exec (.mirror b) s = .next { s with rsp := s.rsp ++ [q] } ∧ highByte q = 0x00 ∧ lowByte q = rev8 b) ∧
    acceptWord (0x40000000#32 ||| b.setWidth 32) s = exec (.mirror b) s ∧
    (∀ w : CommandWord, cmdSel w = 0x4 → w.extractLsb' 8 20 ≠ 0 →
      acceptWord w s = .next { s with rsp := s.rsp ++ [0x0100] }) ∧
    exec (.mirror 0xA2) s = .next { s with rsp := s.rsp ++ [0x0045] }) ∧
  rev8 0x00 = 0x00 ∧ rev8 0xFF = 0xFF ∧ rev8 0x01 = 0x80 ∧
  (∀ b : Byte, rev8 b = b ↔
    b ∈ [0x00#8, 0x18#8, 0x24#8, 0x3C#8, 0x42#8, 0x5A#8, 0x66#8, 0x7E#8, 0x81#8, 0x99#8, 0xA5#8, 0xBD#8, 0xC3#8, 0xDB#8, 0xE7#8, 0xFF#8])

/-- R88. `MIRROR_LINE`: a `MIRROR` per byte, for a line of any length; the responses carry the mirrored bytes in the order of
the line, one for each, and nothing else changes. `MIRROR_LINE 00 01 02 03` gives `00 80 40 C0`. -/
def Obligations.MirrorLineMirrorsEachByte : Prop :=
  (∀ (bs : List Byte) (s : State), s.canAccept = true →
    ∃ qs, transactAll (bareTransactions (mirrorLineOps bs)) s = .next { s with rsp := s.rsp ++ qs } ∧
      qs.map highByte = bs.map (fun _ => 0x00) ∧ qs.map lowByte = bs.map rev8) ∧
  [0x00#8, 0x01#8, 0x02#8, 0x03#8].map rev8 = [0x00, 0x80, 0x40, 0xC0]

/-- Laws of the mirror (derived in the spec, R89): an involution and a bijection; it commutes with exclusive-or, and, or; it
keeps the number of one bits; it moves bit `i` to bit `7 - i`; twice over a line gives the line; it does not commute with the
checksum (under D1). -/
def Obligations.MirrorLaws : Prop :=
  (∀ b : Byte, rev8 (rev8 b) = b ∧ oneBits (rev8 b) = oneBits b) ∧
  Function.Bijective rev8 ∧
  (∀ a b : Byte, rev8 (a ^^^ b) = rev8 a ^^^ rev8 b ∧ rev8 (a &&& b) = rev8 a &&& rev8 b ∧ rev8 (a ||| b) = rev8 a ||| rev8 b) ∧
  (∀ i < 8, rev8 (1#8 <<< i) = 1#8 <<< (7 - i)) ∧
  (∀ bs : List Byte, (bs.map rev8).map rev8 = bs) ∧
  checksum Config.d1 [0x01] = 0x07 ∧ checksum Config.d1 [0x80] = 0x89 ∧ rev8 0x07 = 0xE0

/-- The CRC operations and `MIRROR` change the response list, and `CRC_CLR` and `CRC_UPD` change `CRC`: everything else is
unchanged, the framer, the histories, the host's words and bytes, and every entry of both tables (R74 to R76, R87, R91). -/
def Obligations.CrcAndMirrorFrame : Prop :=
  ∀ (s t : State) (i : Instr), (i = .crcClr ∨ (∃ b, i = .crcUpd b) ∨ i = .crcRd ∨ ∃ b, i = .mirror b) →
    exec i s = .next t →
    t.fr = s.fr ∧ t.resetPin = s.resetPin ∧ t.cmd = s.cmd ∧ t.pin = s.pin ∧ t.sinkReady = s.sinkReady ∧ t.env = s.env ∧
      t.out = s.out ∧ t.past = s.past ∧ (∀ rom a, memRead t.cfg rom a = memRead s.cfg rom a) ∧
      ((i = .crcRd ∨ ∃ b, i = .mirror b) → t.crc = s.crc) ∧ (∃ qs, t.rsp = s.rsp ++ qs)

/-! ### The framer: transaction level (42_framer.md R95 to R102) -/

/-- Properties of `frame_bytes` (derived in the spec, R96, from R95): `n + 8` bytes, 8 to 255; every offset; one-to-one. -/
def Obligations.FrameBytesLayout : Prop :=
  ∀ (c : Config) (op : Byte) (p : List Byte), p.length ≤ 247 →
    (frameBytes c op p).length = p.length + 8 ∧ 8 ≤ (frameBytes c op p).length ∧ (frameBytes c op p).length ≤ 255 ∧
    (frameBytes c op p)[0]? = some 0x51 ∧ (frameBytes c op p)[1]? = some 0x78 ∧ (frameBytes c op p)[2]? = some op ∧
    (frameBytes c op p)[3]? = some 0x00 ∧ (∃ n : Byte, (frameBytes c op p)[4]? = some n ∧ n.toNat = p.length) ∧
    (frameBytes c op p)[5]? = some 0x00 ∧ (∀ i < p.length, (frameBytes c op p)[6 + i]? = p[i]?) ∧
    (frameBytes c op p)[p.length + 6]? = some (checksum c p) ∧ (frameBytes c op p)[p.length + 7]? = some 0xFF ∧
    (∀ op' p', p'.length ≤ 247 → frameBytes c op' p' = frameBytes c op p → op' = op ∧ p' = p)

/-- R98. `FRAME_D8 op, d`, word `0x80000000 | (op << 16) | d`: answers `OK, 0x00` and emits the 9 bytes `51 78 op 00 01 00 d
CRC_TABLE[d] FF`, with every `op` and `d` sent as it is; takes nothing from `PIN`. `REJ_ILLEGAL` if `W[27:24]` or `W[15:8]`
is not 0; never `REJ_TOO_LONG`. Under D1 `d = 0x00` has checksum `0x00`, and the source's example. -/
def Obligations.FrameD8EmitsNineBytes : Prop :=
  ∀ (op d : Byte) (s : State), s.canAccept = true →
    transact ⟨.frameD8 op d, []⟩ s =
      .next { s with
        rsp := s.rsp ++ [0x0000],
        out := s.out ++ [0x51, 0x78, op, 0x00, 0x01, 0x00, d, s.cfg.crcTable.get d.toFin, 0xFF] } ∧
    acceptWord (0x80000000#32 ||| op.setWidth 32 <<< 16 ||| d.setWidth 32) s = exec (.frameD8 op d) s ∧
    (∀ t, exec (.frameD8 op d) s = .next t → t.rsp = s.rsp ++ [0x0000]) ∧
    (∀ w : CommandWord, cmdSel w = 0x8 → w.extractLsb' 24 4 ≠ 0 ∨ w.extractLsb' 8 8 ≠ 0 →
      acceptWord w s = .next { s with rsp := s.rsp ++ [0x0100] }) ∧
    (s.cfg = Config.d1 → s.cfg.crcTable.get 0 = 0x00 ∧
      transact ⟨.frameD8 0xA3 0x01, []⟩ s =
        .next { s with rsp := s.rsp ++ [0x0000], out := s.out ++ [0x51, 0x78, 0xA3, 0x00, 0x01, 0x00, 0x01, 0x07, 0xFF] })

/-- R99. `FRAME_D16 op, v`, word `0x90000000 | (op << 16) | v`: answers `OK, 0x00` and emits the 10 bytes `51 78 op 00 02 00
lo hi c FF` with `lo = v[7:0]`, `hi = v[15:8]` and `c = crc_step(CRC_TABLE[lo], hi)`, the low byte first, two bytes also for
`v < 0x0100`; takes nothing from `PIN`. `REJ_ILLEGAL` if `W[27:24]` is not 0; never `REJ_TOO_LONG`. Under D1 `v = 0x0000` has
checksum `0x00`, and the source's example. -/
def Obligations.FrameD16EmitsTenBytes : Prop :=
  ∀ (op : Byte) (v : Half) (s : State), s.canAccept = true →
    transact ⟨.frameD16 op v, []⟩ s =
      .next { s with
        rsp := s.rsp ++ [0x0000],
        out := s.out ++ [0x51, 0x78, op, 0x00, 0x02, 0x00, v.extractLsb' 0 8, v.extractLsb' 8 8,
          crcStep s.cfg (s.cfg.crcTable.get (v.extractLsb' 0 8).toFin) (v.extractLsb' 8 8), 0xFF] } ∧
    acceptWord (0x90000000#32 ||| op.setWidth 32 <<< 16 ||| v.setWidth 32) s = exec (.frameD16 op v) s ∧
    (∀ t, exec (.frameD16 op v) s = .next t → t.rsp = s.rsp ++ [0x0000]) ∧
    (∀ w : CommandWord, cmdSel w = 0x9 → w.extractLsb' 24 4 ≠ 0 →
      acceptWord w s = .next { s with rsp := s.rsp ++ [0x0100] }) ∧
    (s.cfg = Config.d1 → checksum s.cfg [0x00, 0x00] = 0x00 ∧
      transact ⟨.frameD16 0xAF 0x7FFF, []⟩ s =
        .next { s with rsp := s.rsp ++ [0x0000], out := s.out ++ [0x51, 0x78, 0xAF, 0x00, 0x02, 0x00, 0xFF, 0x7F, 0xAD, 0xFF] })

/-- R100. `FRAME_MULTI op, N` with `N` payload bytes, word `0xA0000000 | (op << 16) | N`: for `N <= 247` answers `OK, 0x00`
and emits the `N + 8` bytes of `frame_bytes(op, p)`; for `N > 247` `REJ_TOO_LONG`. `REJ_ILLEGAL` if `W[27:24]` is not 0. `N =
1` and `N = 2` give the bytes of `FRAME_D8` and `FRAME_D16`; `N = 247` gives 255 bytes with `lenLow = 0xF7`; `N = 248` is
rejected; 48 bytes give 56 with `lenLow = 0x30`. Under D1 the rule's example. -/
def Obligations.FrameMultiEmitsFrame : Prop :=
  (∀ (op : Byte) (n : Half) (p : List Byte) (s : State), s.canAccept = true → p.length = n.toNat →
    transact ⟨.frameMulti op n, p⟩ s =
      (if 247 < n.toNat then .next { s with rsp := s.rsp ++ [0x0200] }
       else .next { s with rsp := s.rsp ++ [0x0000], out := s.out ++ frameBytes s.cfg op p }) ∧
    (n.toNat ≤ 247 → (frameBytes s.cfg op p).length = n.toNat + 8) ∧
    acceptWord (0xA0000000#32 ||| op.setWidth 32 <<< 16 ||| n.setWidth 32) s = exec (.frameMulti op n) s ∧
    (∀ w : CommandWord, cmdSel w = 0xA → w.extractLsb' 24 4 ≠ 0 →
      acceptWord w s = .next { s with rsp := s.rsp ++ [0x0100] })) ∧
  (∀ (op b0 b1 : Byte) (s : State), s.canAccept = true →
    transact ⟨.frameMulti op 1, [b0]⟩ s = transact ⟨.frameD8 op b0, []⟩ s ∧
    transact ⟨.frameMulti op 2, [b0, b1]⟩ s = transact ⟨.frameD16 op (b1 ++ b0), []⟩ s ∧
    (∀ p, p.length = 248 → transact ⟨.frameMulti op 248, p⟩ s = .next { s with rsp := s.rsp ++ [0x0200] })) ∧
  (∀ (c : Config) (op : Byte) (p : List Byte), (p.length = 247 → (frameBytes c op p).length = 255 ∧ (frameBytes c op p)[4]? = some 0xF7) ∧
    (p.length = 48 → (frameBytes c op p).length = 56 ∧ (frameBytes c op p)[4]? = some 0x30)) ∧
  frameBytes Config.d1 0xA2 [0x01, 0x02, 0x03] = [0x51, 0x78, 0xA2, 0x00, 0x03, 0x00, 0x01, 0x02, 0x03, 0x48, 0xFF]

/-- R110. `IMAGE_ROW` of `k <= 247` bytes: each byte is mirrored and then the mirrored line is framed with opcode `0xA2`, so
that the checksum is that of the mirrored bytes. A longer line (one whose count `FRAME_MULTI` can carry; beyond that
log 18) cannot be sent as one row: its frame is rejected. Under D1 `IMAGE_ROW 01 02 03` emits the rule's example. -/
def Obligations.ImageRowFramesMirroredLine : Prop :=
  (∀ (bs : List Byte) (s : State), s.canAccept = true → bs.length < 65536 →
    ∃ qs, qs.map highByte = bs.map (fun _ => 0x00) ∧ qs.map lowByte = bs.map rev8 ∧
      transactAll (imageRow bs) s =
        (if bs.length ≤ 247 then
          .next { s with rsp := s.rsp ++ qs ++ [0x0000], out := s.out ++ frameBytes s.cfg 0xA2 (bs.map rev8) }
        else .next { s with rsp := s.rsp ++ qs ++ [0x0200] })) ∧
  frameBytes Config.d1 0xA2 ([0x01#8, 0x02#8, 0x03#8].map rev8) =
    [0x51, 0x78, 0xA2, 0x00, 0x03, 0x00, 0x80, 0x40, 0xC0, 0x1E, 0xFF]

/-- `WellFormedFrame(f)` holds of exactly the frames that `frame_bytes` builds from a payload of at most 247 bytes (derived
in the spec, R112). -/
def Obligations.WellFormedFrameIffBuilt : Prop :=
  ∀ (c : Config) (f : List Byte),
    wellFormedFrame c f = true ↔ ∃ op p, p.length ≤ 247 ∧ f = frameBytes c op p

/-- A stream of whole frames is cut back into them from the front by reading each length byte (derived in the spec, R60,
R113). -/
def Obligations.StreamCutsBackIntoFrames : Prop :=
  ∀ (c : Config) (fs : List (Byte × List Byte)) (fuel : Nat), Framable fs → fs.length ≤ fuel →
    cutFrames fuel (framesBytes c fs) = fs.map (fun f => frameBytes c f.1 f.2)

/-! ### The framer: byte-serial level (42_framer.md R103 to R109) -/

/-- R101, R103. The accept step of a frame operation: `FR <- Busy` with `OPC = op`, `LEN`, `SRC`, `ARG` of the operation,
`PHASE = HEAD`, `IDX = 0`, `FCRC = 0x00`, response `OK, 0x00`; no byte is emitted and `CRC` is unchanged. An illegal word is
rejected with `FR` left `Idle`; so is every `N` from 248 to 65535, with `REJ_TOO_LONG`: no byte taken from `PIN`, none
emitted, `CRC` unchanged. -/
def Obligations.AcceptStepStartsFrame : Prop :=
  ∀ s : State, s.canAccept = true →
    (∀ op d, exec (.frameD8 op d) s = .next { s with
      fr := .busy ⟨op, 1, .fromArg, d.setWidth 16, .head, 0, 0x00⟩, rsp := s.rsp ++ [0x0000] }) ∧
    (∀ op v, exec (.frameD16 op v) s = .next { s with
      fr := .busy ⟨op, 2, .fromArg, v, .head, 0, 0x00⟩, rsp := s.rsp ++ [0x0000] }) ∧
    (∀ op (n : Half), n.toNat ≤ 247 → exec (.frameMulti op n) s = .next { s with
      fr := .busy ⟨op, n.extractLsb' 0 8, .fromPin, 0x0000, .head, 0, 0x00⟩, rsp := s.rsp ++ [0x0000] }) ∧
    (∀ op (n : Half), 247 < n.toNat → exec (.frameMulti op n) s = .next { s with fr := .idle, rsp := s.rsp ++ [0x0200] }) ∧
    (∀ w, CommandWord.legal w = false → acceptWord w s = .next { s with fr := .idle, rsp := s.rsp ++ [0x0100] })

/-- The accept step of a frame operation changes `FR` and the response list and nothing else; the framer's emit steps change
`FR`, `OUT` and, in `PAYL` with `SRC = FROM_PIN`, `PIN`, and nothing else (R103 to R107, R111). -/
def Obligations.FramerFrame : Prop :=
  (∀ (s t : State) (i : Instr), (∃ op d, i = .frameD8 op d) ∨ (∃ op v, i = .frameD16 op v) ∨ (∃ op n, i = .frameMulti op n) →
    exec i s = .next t →
    t.crc = s.crc ∧ t.resetPin = s.resetPin ∧ t.cmd = s.cmd ∧ t.pin = s.pin ∧ t.sinkReady = s.sinkReady ∧ t.env = s.env ∧
      t.out = s.out ∧ t.past = s.past ∧ (∀ rom a, memRead t.cfg rom a = memRead s.cfg rom a) ∧ (∃ qs, t.rsp = s.rsp ++ qs)) ∧
  (∀ (s t : State) (f : Frame), s.fr = .busy f → blockStep s = .next t →
    t.crc = s.crc ∧ t.resetPin = s.resetPin ∧ t.cmd = s.cmd ∧ t.sinkReady = s.sinkReady ∧ t.env = s.env ∧ t.rsp = s.rsp ∧
      t.past = s.past ∧ (∀ rom a, memRead t.cfg rom a = memRead s.cfg rom a) ∧
      (f.phase = .payl ∧ f.src = .fromPin ∨ t.pin = s.pin))

/-- R104. Emit step in phase `HEAD`: emits the byte of `[0x51, 0x78, OPC, 0x00, LEN, 0x00]` at `IDX`; then `IDX + 1` if `IDX
< 5`, else `CSUM` if `LEN = 0`, else `PAYL`, with `IDX = 0`. Six `HEAD` steps emit frame offsets 0 to 5. -/
def Obligations.HeadStepEmitsHeader : Prop :=
  ∀ (s : State) (f : Frame), s.resetPin = false → s.fr = .busy f → f.phase = .head → s.sinkReady = true →
    (∀ x, [0x51, 0x78, f.opc, 0x00, f.len, 0x00][f.idx.toNat]? = some x →
      blockStep s = .next { s with
        out := s.out ++ [x],
        fr := .busy (
          if f.idx.toNat < 5 then { f with idx := f.idx + 1 }
          else if f.len = 0 then { f with phase := .csum, idx := 0 }
          else { f with phase := .payl, idx := 0 }) }) ∧
    (f.idx = 0 → s.env = [] →
      runSteps 6 s = .next { s with
        out := s.out ++ [0x51, 0x78, f.opc, 0x00, f.len, 0x00],
        fr := .busy { f with phase := if f.len = 0 then .csum else .payl, idx := 0 } })

/-- R105. Emit step in phase `PAYL`: the byte `x` is `ARG[7:0]` or `ARG[15:8]` by `IDX`, or the byte taken from `PIN`; `FCRC
<- CRC_TABLE[FCRC ^ x]`; `x` is emitted unchanged; then `IDX + 1` if `IDX + 1 < LEN`, else `CSUM` with `IDX = 0`. `LEN` such
steps emit the payload. With `SRC = FROM_PIN` and no byte offered the step is held for any number of steps: there is no
time-out. -/
def Obligations.PaylStepEmitsPayload : Prop :=
  ∀ (s : State) (f : Frame), s.resetPin = false → s.fr = .busy f → f.phase = .payl → s.sinkReady = true →
    (f.src = .fromArg →
      ∃ x, x = (if f.idx = 0 then f.arg.extractLsb' 0 8 else f.arg.extractLsb' 8 8) ∧
        blockStep s = .next { s with
          out := s.out ++ [x],
          fr := .busy (
            if f.idx.toNat + 1 < f.len.toNat then
              { f with idx := f.idx + 1, fcrc := s.cfg.crcTable.get (f.fcrc ^^^ x).toFin }
            else { f with phase := .csum, idx := 0, fcrc := s.cfg.crcTable.get (f.fcrc ^^^ x).toFin }) }) ∧
    (∀ x rest, f.src = .fromPin → s.pin = x :: rest →
      blockStep s = .next { s with
        pin := rest, out := s.out ++ [x],
        fr := .busy (
          if f.idx.toNat + 1 < f.len.toNat then
            { f with idx := f.idx + 1, fcrc := s.cfg.crcTable.get (f.fcrc ^^^ x).toFin }
          else { f with phase := .csum, idx := 0, fcrc := s.cfg.crcTable.get (f.fcrc ^^^ x).toFin }) }) ∧
    (∀ p rest, f.src = .fromPin → f.idx = 0 → s.env = [] → s.pin = p ++ rest → p.length = f.len.toNat → p ≠ [] →
      runSteps p.length s = .next { s with
        pin := rest, out := s.out ++ p,
        fr := .busy { f with phase := .csum, idx := 0, fcrc := checksumFrom s.cfg f.fcrc p } }) ∧
    (f.src = .fromArg → f.idx = 0 → s.env = [] → f.len = 1 ∨ f.len = 2 →
      runSteps f.len.toNat s = .next { s with
        out := s.out ++ f.argPayload,
        fr := .busy { f with phase := .csum, idx := 0, fcrc := checksumFrom s.cfg f.fcrc f.argPayload } }) ∧
    (f.src = .fromPin → s.pin = [] → s.env = [] → ∀ k, runSteps k s = .next s)

/-- R106, R107. Emit step in phase `CSUM`: emits `FCRC`, then `TAIL`. Emit step in phase `TAIL`: emits `0xFF`, and `FR` is
`Idle`, after which the command port accepts again. -/
def Obligations.CsumAndTailSteps : Prop :=
  ∀ (s : State) (f : Frame), s.resetPin = false → s.fr = .busy f → s.sinkReady = true →
    (f.phase = .csum → blockStep s = .next { s with out := s.out ++ [f.fcrc], fr := .busy { f with phase := .tail } }) ∧
    (f.phase = .tail → ∃ t, blockStep s = .next t ∧ t = { s with out := s.out ++ [0xFF], fr := .idle } ∧ t.canAccept = true)

/-- Count and contiguity (derived in the spec, R108): a frame with `n` payload bytes takes one accept step and exactly `n + 8`
emit steps, 6 in `HEAD`, `n` in `PAYL`, 1 in `CSUM`, 1 in `TAIL`, in that order. After `k` of its first `n + 8` steps the block
is `Busy` in the phase this gives, and `k - 1` bytes have been emitted; after `n + 9` it is `Idle` and `n + 8` have. No
command is accepted between, and the one response is that of the accept step. -/
def Obligations.FrameStepCount : Prop :=
  ∀ (i : Instr) (n : Nat) (p : List Byte) (s : State),
    (∃ op d, i = .frameD8 op d ∧ n = 1 ∧ p = []) ∨ (∃ op v, i = .frameD16 op v ∧ n = 2 ∧ p = []) ∨
      (∃ op m, i = .frameMulti op m ∧ m.toNat ≤ 247 ∧ n = m.toNat ∧ p.length = n) →
    s.canAccept = true → s.sinkReady = true → s.env = [] →
    (∀ k, 1 ≤ k → k ≤ n + 8 →
      ∃ u f, runSteps k { s with cmd := encode i :: s.cmd, pin := p ++ s.pin } = .next u ∧ u.fr = .busy f ∧
        f.phase = (if k ≤ 6 then .head else if k ≤ n + 6 then .payl else if k = n + 7 then .csum else .tail) ∧
        u.cmd = s.cmd ∧ u.rsp = s.rsp ++ [0x0000] ∧ u.out.length = s.out.length + (k - 1)) ∧
    (∃ u, runSteps (n + 9) { s with cmd := encode i :: s.cmd, pin := p ++ s.pin } = .next u ∧ u.fr = .idle ∧
      u.cmd = s.cmd ∧ u.rsp = s.rsp ++ [0x0000] ∧ u.out.length = s.out.length + (n + 8))

/-- Agreement of the two levels (derived in the spec, R109): with a ready sink and the payload offered, the byte-serial steps
of an operation end in the state that the transaction level gives in one step. -/
def Obligations.ByteSerialAgreesWithTransaction : Prop :=
  ∀ (t : Transaction) (s : State), t.wf = true → s.canAccept = true → s.sinkReady = true → s.env = [] →
    runSteps (instrSteps t.op) { s with cmd := encode t.op :: s.cmd, pin := t.payload ++ s.pin } = transact t s

/-- A whole program (R109, R113, R148, R152, R153): the words of any transactions, presented in order with their payload bytes,
run at the byte-serial level to the end that the transaction level gives; there the block is idle, one response has been given
per word, `OUT` has gained the frames of the accepted operations, in acceptance order, and the run is over unless words that
are none of the program's are presented too. -/
def Obligations.ProgramRunsAsItsTransactions : Prop :=
  ∀ (ts : List Transaction) (s : State), (∀ t ∈ ts, t.wf = true) → s.canAccept = true → s.sinkReady = true →
    s.env = [] →
    ∃ u, runSteps (programSteps ts) { s with cmd := commandWords ts ++ s.cmd, pin := payloadBytes ts ++ s.pin } = .next u ∧
      transactAll ts s = .next u ∧ u.fr = .idle ∧ u.cmd = s.cmd ∧ u.pin = s.pin ∧
      u.rsp.length = s.rsp.length + ts.length ∧
      u.out = s.out ++ framesBytes s.cfg (ts.filterMap acceptedFrame) ∧
      (s.cmd = [] → u.runIsOver = true)

/-- The end of a run (R153; the schedule is log 2, that a program may stand in it log 4, and that a word the host has withdrawn
belongs to the run no longer log 19, each the model's choice). A run is over exactly when no word is presented, none is still
to be presented, and `FR = Idle`. Without a reset and without words withdrawn, every word leaves `wordsToCome` by one
response, so that a run that is over has answered every word it had to come. Short of a reset, what is observed of a run that
is over is final. -/
def Obligations.RunIsOverWhenEveryWordIsAnswered : Prop :=
  (∀ s : State, s.runIsOver = true ↔ s.cmd = [] ∧ (∀ w, .present w ∉ s.env) ∧ s.fr = .idle) ∧
  (∀ (s t : State) (k : Nat), (∀ e ∈ s.env, e ≠ .reset true ∧ e ≠ .withdrawCmd) → runSteps k s = .next t →
    t.wordsToCome <:+ s.wordsToCome ∧ t.rsp.length + t.wordsToCome.length = s.rsp.length + s.wordsToCome.length ∧
      (t.runIsOver = true → t.rsp.length = s.rsp.length + s.wordsToCome.length)) ∧
  (∀ (s t : State) (k : Nat), s.runIsOver = true → (∀ e ∈ s.env, e ≠ .reset true) → runSteps k s = .next t →
    t.observation = s.observation ∧ t.runIsOver = true)

/-- From every point of a frame that the invariant admits, with a ready sink and the missing payload bytes offered, the frame
is completed in the steps left: the missing payload bytes, the checksum and `0xFF` follow, and `FR` is `Idle` (R104 to R108,
R152). -/
def Obligations.FrameCompletesFromAnyPoint : Prop :=
  ∀ (s : State) (f : Frame) (sofar more rest base : List Byte), s.fr = .busy f → f.Inv s.cfg sofar → s.resetPin = false → s.env = [] →
    s.sinkReady = true → more.length = f.missing →
    (f.src = .fromPin → s.pin = more ++ rest) → (f.src = .fromArg → s.pin = rest ∧ sofar ++ more = f.argPayload) →
    s.out = base ++ f.emitted sofar →
    runSteps f.stepsLeft s = .next { s with
      fr := .idle, pin := rest, out := base ++ frameBytes s.cfg f.opc (sofar ++ more) }

/-- Whatever the host and the sink do while a frame is being emitted, short of a reset, the bytes on `OUT` are those of one
frame with the fields of the accepted command: at every moment `OUT` is a part of that frame from its start, or it holds the
whole frame and goes on behind it (R31, R108, R146, R147, R148). -/
def Obligations.FrameIsOneFrameUnderEverySchedule : Prop :=
  ∀ (s t : State) (f : Frame) (sofar base : List Byte) (k : Nat), s.fr = .busy f → f.Inv s.cfg sofar → s.resetPin = false →
    s.out = base ++ f.emitted sofar → (∀ e ∈ s.env, e ≠ .reset true) → runSteps k s = .next t →
    ∃ p, sofar <+: p ∧ p.length = f.len.toNat ∧ (f.src = .fromArg → p = f.argPayload) ∧
      (t.out <+: base ++ frameBytes s.cfg f.opc p ∨ base ++ frameBytes s.cfg f.opc p <+: t.out)

/-- R111. The output of a frame operation depends on its operands, its payload and the table alone: from any two states that
accept it, whatever `CRC`, the histories and the rest are, the same bytes are emitted; and it leaves nothing that a later
operation can observe but `OUT` (its own response apart). -/
def Obligations.FramingIsPure : Prop :=
  ∀ (c : Config) (t : Transaction), t.wf = true → 1 < instrSteps t.op →
    ∃ bytes : List Byte, ∀ s : State, s.cfg = c → s.canAccept = true → s.sinkReady = true → s.env = [] →
      runSteps (instrSteps t.op) { s with cmd := encode t.op :: s.cmd, pin := t.payload ++ s.pin } =
        .next { s with rsp := s.rsp ++ [0x0000], out := s.out ++ bytes }

/-- R114. If the host offers fewer than `N` bytes after `FRAME_MULTI op, N` is accepted, `BUSY` stays 1 for ever and no later
command is accepted; with a ready sink the framer takes what is offered and from then on waits in phase `PAYL` for ever. If it
offers more, the extra bytes stay with it; a transaction with `len(p) != N` is refused. -/
def Obligations.HostDutyOnPin : Prop :=
  ∀ (op : Byte) (n : Half) (s : State), n.toNat ≤ 247 → s.canAccept = true →
    (s.env = [] → s.pin.length < n.toNat → ∀ k, 1 ≤ k →
      ∃ t, runSteps k { s with cmd := encode (.frameMulti op n) :: s.cmd } = .next t ∧ t.busy = true ∧ t.cmd = s.cmd ∧
        t.rsp = s.rsp ++ [0x0000]) ∧
    (s.env = [] → s.sinkReady = true → s.pin.length < n.toNat → ∀ k, s.pin.length + 7 ≤ k →
      ∃ t f, runSteps k { s with cmd := encode (.frameMulti op n) :: s.cmd } = .next t ∧ t.fr = .busy f ∧
        f.phase = .payl ∧ f.idx.toNat = s.pin.length ∧ t.pin = [] ∧ t.cmd = s.cmd ∧
        t.out = s.out ++ headerBytes op (lowByte n) ++ s.pin) ∧
    (∀ p extra, s.env = [] → s.sinkReady = true → s.pin = p ++ extra → p.length = n.toNat →
      ∃ t, runSteps (n.toNat + 9) { s with cmd := encode (.frameMulti op n) :: s.cmd } = .next t ∧ t.busy = false ∧
        t.pin = extra) ∧
    (∀ p, p.length ≠ n.toNat → transact ⟨.frameMulti op n, p⟩ s = .refused .payloadLengthMismatch)

/-- R146. No operation shortens, restarts or abandons a frame once it is accepted: a turn of the block in `Busy` is the same
whatever words the host presents; and for a frame that has its invariant it leaves the state as it is, or emits one byte and
keeps `OPC`, `LEN`, `SRC` and `ARG` with one step fewer left, until the `TAIL` step, which emits `0xFF` and ends the frame. -/
def Obligations.NoCancellation : Prop :=
  ∀ (s : State) (f : Frame), s.fr = .busy f → ∀ t, blockStep s = .next t →
    (∀ other, blockStep { s with cmd := other } = .next { t with cmd := other }) ∧
    ((∃ g, t.fr = .busy g ∧ g.opc = f.opc ∧ g.len = f.len ∧ g.src = f.src ∧ g.arg = f.arg) ∨
      (f.phase = .tail ∧ t.fr = .idle ∧ t.out = s.out ++ [0xFF])) ∧
    (∀ sofar, f.Inv s.cfg sofar →
      t = s ∨
      (∃ g b, t.fr = .busy g ∧ t.out = s.out ++ [b] ∧ g.stepsLeft + 1 = f.stepsLeft) ∨
      (f.stepsLeft = 1 ∧ t.fr = .idle ∧ t.out = s.out ++ [0xFF]))

/-! ### Rejections, reset, invariant -/

/-- R120. The block never traps and never stops on an error: every operation answers a next state in every state, every step
does from every state that the invariant admits, and an operation that cannot be performed is rejected: its response carries
the cause and nothing else is done. -/
def Obligations.BlockNeverStops : Prop :=
  (∀ (i : Instr) (s : State), ∃ t, exec i s = .next t) ∧
  (∀ s : State, s.Inv → ∃ t, step s = .next t) ∧
  (∀ (w : CommandWord) (s : State), s.canAccept = true →
    (CommandWord.legal w = false → acceptWord w s = .next { s with rsp := s.rsp ++ [0x0100] }) ∧
    (∀ op n, w = encode (.frameMulti op n) → 247 < n.toNat → acceptWord w s = .next { s with rsp := s.rsp ++ [0x0200] }))

/-- R126. A rejection produces its response word and changes nothing: the state after it is the state before it, and the next
command word is accepted as if the rejected one had never been sent. -/
def Obligations.RejectionLeavesNoTrace : Prop :=
  ∀ (w : CommandWord) (s t : State) (q : ResponseWord), s.canAccept = true → acceptWord w s = .next t →
    t.rsp = s.rsp ++ [q] → highByte q ≠ 0x00 →
    t = { s with rsp := s.rsp ++ [q] } ∧
    ∀ w', ∃ u q', acceptWord w' s = .next u ∧ u.rsp = s.rsp ++ [q'] ∧
      acceptWord w' t = .next { u with rsp := s.rsp ++ [q, q'] }

/-- R20. After reset `CRC = 0x00`, `FR = Idle`, so that no field of `Busy` exists, the `BUSY` output is 0 and the history `OUT`
is empty: so it is in `State.reset`, and so it is when `RESET` has been asserted and released, from any state where it was not
asserted, with every entry of both tables as before. -/
def Obligations.ResetValues : Prop :=
  (State.reset.crc = 0x00 ∧ State.reset.fr = .idle ∧ State.reset.busy = false ∧ State.reset.out = []) ∧
  ∀ s : State, s.resetPin = false →
    ∃ t, (s.driveReset true).driveReset false = t ∧ t.crc = 0x00 ∧ t.fr = .idle ∧ t.busy = false ∧ t.out = [] ∧
      ∀ rom a, memRead t.cfg rom a = memRead s.cfg rom a

/-- R140. While `RESET` is asserted the block accepts no command, takes no byte, emits nothing and `BUSY` is 0; when it is
released the state is the reset state `CRC = 0x00`, `FR = Idle`, whatever it was before. No operation clears the framer: its
turn in `Busy` is the same whatever words are presented. `CRC_CLR` clears only `CRC`. -/
def Obligations.ResetInput : Prop :=
  ∀ s : State, s.Inv →
    (s.resetPin = true → blockStep s = .next s ∧ s.busy = false) ∧
    (∀ rest, s.env = .reset true :: rest → ∃ t, step s = .next t ∧ t.resetPin = true ∧ t.busy = false) ∧
    (∀ rest, s.resetPin = true → s.env = .reset false :: rest →
      ∃ t, step s = .next t ∧ t.resetPin = false ∧ t.crc = 0x00 ∧ t.fr = .idle) ∧
    (∀ t other, s.busy = true → blockStep s = .next t →
      blockStep { s with cmd := other } = .next { t with cmd := other }) ∧
    (s.canAccept = true →
      ∃ t, exec .crcClr s = .next t ∧ t.crc = 0x00 ∧ t.fr = s.fr ∧ t.out = s.out ∧ t.pin = s.pin ∧ t.cmd = s.cmd)

/-- Asserting `RESET`, during a frame (R142, its option (b)) or not, under the model's choices: the reset values stand from the
assertion on (log 5, DEDUCED), and the history is split there (log 6, DESIGN CHOICE). The bytes already emitted stay in the
observation that is put aside, the rest of a frame is never sent, and the new history starts empty. -/
def Obligations.ResetCutsFrameShort : Prop :=
  ∀ (s : State) (rest : List EnvEvent), s.resetPin = false → s.env = .reset true :: rest →
    ∃ t, step s = .next t ∧ t.fr = .idle ∧ t.busy = false ∧ t.crc = 0x00 ∧ t.out = [] ∧ t.rsp = [] ∧
      t.past = s.past ++ [s.observation] ∧ ∀ rom a, memRead t.cfg rom a = memRead s.cfg rom a

/-- What the moves of the environment change (R38: the host and the sink change nothing inside the block; the moves themselves
are the model's choice, log 2): each does what its name says to the host's words, its bytes or the sink, takes its entry from
the schedule, and leaves all else as it is, `CRC`, `FR`, the responses, `OUT` and `past` among it. That a reset leaves the
host's words and bytes where they are, and that the host may withdraw them, is the model's choice too (log 7). -/
def Obligations.EnvironmentMovesFrame : Prop :=
  ∀ (s : State) (rest : List EnvEvent),
    (∀ w, s.env = .present w :: rest → step s = .next { s with env := rest, cmd := s.cmd ++ [w] }) ∧
    (s.env = .withdrawCmd :: rest → step s = .next { s with env := rest, cmd := [] }) ∧
    (∀ b, s.env = .offer b :: rest → step s = .next { s with env := rest, pin := s.pin ++ [b] }) ∧
    (s.env = .withdrawPin :: rest → step s = .next { s with env := rest, pin := [] }) ∧
    (∀ ready, s.env = .sink ready :: rest → step s = .next { s with env := rest, sinkReady := ready }) ∧
    (∀ level, s.env = .reset level :: rest →
      ∃ t, step s = .next t ∧ t.env = rest ∧ t.cmd = s.cmd ∧ t.pin = s.pin ∧ t.sinkReady = s.sinkReady)

/-- R40, R141. No step and no reset changes a table: every entry of `CRC_ROM` and `MIR_ROM` reads after any step as it read
before. -/
def Obligations.TablesNeverChange : Prop :=
  ∀ s t : State, step s = .next t → ∀ rom a, memRead t.cfg rom a = memRead s.cfg rom a

/-- The invariant of the model is kept by every step, from every state that has it, whoever moves. What it says of a frame in
progress is R22, derived in the spec, and of whole frames on `OUT` R113, derived too; of the responses, R56. What it says while
`RESET` is asserted (the values of `CRC`, `FR`, the responses and `OUT`) rests on the model's choices of log 5 (DEDUCED) and
log 6 (DESIGN CHOICE), and what it says of the histories that earlier resets ended (R142) on log 6. -/
def Obligations.InvariantIsKept : Prop :=
  ∀ s t : State, s.Inv → step s = .next t → t.Inv

/-- The state after reset has the invariant of the model (its parts on an asserted `RESET` and on earlier histories are logs 5
and 6; of the reset state they say nothing, since `RESET` is released in it and no history is put aside). -/
def Obligations.ResetHasInvariant : Prop := State.reset.Inv
end

