-- ==== Sys2Proof/Laws/Encoding.lean ====
section
/-! SUPPORT. The fields of an encoded word, and a word from its fields. -/

namespace Sys2Proof.Machine

theorem cmdSel_packCommand (sel : BitVec 4) (opc : Byte) (arg : Half) : cmdSel (packCommand sel opc arg) = sel := by
  unfold cmdSel packCommand
  ext i hi
  simp only [BitVec.getElem_extractLsb', BitVec.getLsbD_append]
  have h1 : ¬(28 + i < 16) := by omega
  have h2 : ¬(28 + i - 16 < 8) := by omega
  have h3 : ¬(28 + i - 16 - 8 < 4) := by omega
  have h4 : 28 + i - 16 - 8 - 4 = i := by omega
  simp [h1, h2, h3, h4, BitVec.getLsbD_eq_getElem hi]

theorem cmdRsv_packCommand (sel : BitVec 4) (opc : Byte) (arg : Half) : cmdRsv (packCommand sel opc arg) = 0 := by
  unfold cmdRsv packCommand
  ext i hi
  simp only [BitVec.getElem_extractLsb', BitVec.getLsbD_append]
  have h1 : ¬(24 + i < 16) := by omega
  have h2 : ¬(24 + i - 16 < 8) := by omega
  have h3 : 24 + i - 16 - 8 < 4 := by omega
  simp [h1, h2, h3]

theorem cmdOpc_packCommand (sel : BitVec 4) (opc : Byte) (arg : Half) : cmdOpc (packCommand sel opc arg) = opc := by
  unfold cmdOpc packCommand
  ext i hi
  simp only [BitVec.getElem_extractLsb', BitVec.getLsbD_append]
  have h1 : ¬(16 + i < 16) := by omega
  have h2 : 16 + i - 16 < 8 := by omega
  have h3 : 16 + i - 16 = i := by omega
  simp [h1, hi, h3]

theorem cmdArg_packCommand (sel : BitVec 4) (opc : Byte) (arg : Half) : cmdArg (packCommand sel opc arg) = arg := by
  unfold cmdArg packCommand
  ext i hi
  simp only [BitVec.getElem_extractLsb', BitVec.getLsbD_append]
  have h1 : 0 + i < 16 := by omega
  simp [hi]

theorem lowByte_byteArg (b : Byte) : lowByte (byteArg b) = b := by
  unfold lowByte byteArg
  ext i hi
  simp [hi]
  omega

theorem highByte_byteArg (b : Byte) : highByte (byteArg b) = 0 := by
  unfold highByte byteArg
  ext i hi
  simp [BitVec.getLsbD_setWidth]

/-- A word whose reserved field is 0 is the word packed from its other fields. -/
theorem packCommand_fields (w : CommandWord) (h : cmdRsv w = 0) : packCommand (cmdSel w) (cmdOpc w) (cmdArg w) = w := by
  unfold packCommand cmdSel cmdOpc cmdArg
  unfold cmdRsv at h
  rw [show (0#4 : BitVec 4) = w.extractLsb' 24 4 from h.symm,
    BitVec.extractLsb'_append_extractLsb'_eq_extractLsb' (by rfl),
    BitVec.extractLsb'_append_extractLsb'_eq_extractLsb' (by rfl),
    BitVec.extractLsb'_append_extractLsb'_eq_extractLsb' (by rfl)]
  simp

/-- A 16-bit value whose high byte is 0 is its low byte widened. -/
theorem byteArg_lowByte (v : Half) (h : highByte v = 0) : byteArg (lowByte v) = v := by
  apply BitVec.eq_of_getLsbD_eq
  intro i hi
  by_cases h8 : i < 8
  · simp [byteArg, lowByte, hi, h8]
  · have hb : (highByte v).getLsbD (i - 8) = false := by rw [h]; simp
    have h1 : 8 + (i - 8) = i := by omega
    have h2 : i - 8 < 8 := by omega
    rw [highByte, BitVec.getLsbD_extractLsb', h1] at hb
    simp only [h2, decide_true, Bool.true_and] at hb
    simp [byteArg, lowByte, h8, hb]

/-- Two bytes put together and taken apart. -/
theorem highByte_append (a b : Byte) : highByte (a ++ b) = a := by
  unfold highByte
  ext i hi
  simp only [BitVec.getElem_extractLsb', BitVec.getLsbD_append]
  have h1 : ¬(8 + i < 8) := by omega
  have h2 : 8 + i - 8 = i := by omega
  simp [h2, BitVec.getLsbD_eq_getElem hi]

theorem lowByte_append (a b : Byte) : lowByte (a ++ b) = b := by
  unfold lowByte
  ext i hi
  simp only [BitVec.getElem_extractLsb', BitVec.getLsbD_append]
  simp [hi]

end Sys2Proof.Machine
end

