-- ==== Sys2Proof/Laws/State.lean ====
section
/-! SUPPORT. One lemma per field of State for each named update: what the update writes and what it leaves. -/

namespace Sys2Proof.Machine

variable (s : State)

@[simp] theorem State.setCrc_cfg (v : Byte) : (s.setCrc v).cfg = s.cfg := rfl
@[simp] theorem State.setCrc_crc (v : Byte) : (s.setCrc v).crc = v := rfl
@[simp] theorem State.setCrc_fr (v : Byte) : (s.setCrc v).fr = s.fr := rfl
@[simp] theorem State.setCrc_resetPin (v : Byte) : (s.setCrc v).resetPin = s.resetPin := rfl
@[simp] theorem State.setCrc_cmd (v : Byte) : (s.setCrc v).cmd = s.cmd := rfl
@[simp] theorem State.setCrc_pin (v : Byte) : (s.setCrc v).pin = s.pin := rfl
@[simp] theorem State.setCrc_sinkReady (v : Byte) : (s.setCrc v).sinkReady = s.sinkReady := rfl
@[simp] theorem State.setCrc_env (v : Byte) : (s.setCrc v).env = s.env := rfl
@[simp] theorem State.setCrc_rsp (v : Byte) : (s.setCrc v).rsp = s.rsp := rfl
@[simp] theorem State.setCrc_out (v : Byte) : (s.setCrc v).out = s.out := rfl
@[simp] theorem State.setCrc_past (v : Byte) : (s.setCrc v).past = s.past := rfl

@[simp] theorem State.setFr_cfg (g : Framer) : (s.setFr g).cfg = s.cfg := rfl
@[simp] theorem State.setFr_crc (g : Framer) : (s.setFr g).crc = s.crc := rfl
@[simp] theorem State.setFr_fr (g : Framer) : (s.setFr g).fr = g := rfl
@[simp] theorem State.setFr_resetPin (g : Framer) : (s.setFr g).resetPin = s.resetPin := rfl
@[simp] theorem State.setFr_cmd (g : Framer) : (s.setFr g).cmd = s.cmd := rfl
@[simp] theorem State.setFr_pin (g : Framer) : (s.setFr g).pin = s.pin := rfl
@[simp] theorem State.setFr_sinkReady (g : Framer) : (s.setFr g).sinkReady = s.sinkReady := rfl
@[simp] theorem State.setFr_env (g : Framer) : (s.setFr g).env = s.env := rfl
@[simp] theorem State.setFr_rsp (g : Framer) : (s.setFr g).rsp = s.rsp := rfl
@[simp] theorem State.setFr_out (g : Framer) : (s.setFr g).out = s.out := rfl
@[simp] theorem State.setFr_past (g : Framer) : (s.setFr g).past = s.past := rfl

@[simp] theorem State.emit_cfg (b : Byte) : (s.emit b).cfg = s.cfg := rfl
@[simp] theorem State.emit_crc (b : Byte) : (s.emit b).crc = s.crc := rfl
@[simp] theorem State.emit_fr (b : Byte) : (s.emit b).fr = s.fr := rfl
@[simp] theorem State.emit_resetPin (b : Byte) : (s.emit b).resetPin = s.resetPin := rfl
@[simp] theorem State.emit_cmd (b : Byte) : (s.emit b).cmd = s.cmd := rfl
@[simp] theorem State.emit_pin (b : Byte) : (s.emit b).pin = s.pin := rfl
@[simp] theorem State.emit_sinkReady (b : Byte) : (s.emit b).sinkReady = s.sinkReady := rfl
@[simp] theorem State.emit_env (b : Byte) : (s.emit b).env = s.env := rfl
@[simp] theorem State.emit_rsp (b : Byte) : (s.emit b).rsp = s.rsp := rfl
@[simp] theorem State.emit_out (b : Byte) : (s.emit b).out = s.out ++ [b] := rfl
@[simp] theorem State.emit_past (b : Byte) : (s.emit b).past = s.past := rfl

@[simp] theorem State.respond_cfg (st : Status) (v : Byte) : (s.respond st v).cfg = s.cfg := rfl
@[simp] theorem State.respond_crc (st : Status) (v : Byte) : (s.respond st v).crc = s.crc := rfl
@[simp] theorem State.respond_fr (st : Status) (v : Byte) : (s.respond st v).fr = s.fr := rfl
@[simp] theorem State.respond_resetPin (st : Status) (v : Byte) : (s.respond st v).resetPin = s.resetPin := rfl
@[simp] theorem State.respond_cmd (st : Status) (v : Byte) : (s.respond st v).cmd = s.cmd := rfl
@[simp] theorem State.respond_pin (st : Status) (v : Byte) : (s.respond st v).pin = s.pin := rfl
@[simp] theorem State.respond_sinkReady (st : Status) (v : Byte) : (s.respond st v).sinkReady = s.sinkReady := rfl
@[simp] theorem State.respond_env (st : Status) (v : Byte) : (s.respond st v).env = s.env := rfl
@[simp] theorem State.respond_rsp (st : Status) (v : Byte) : (s.respond st v).rsp = s.rsp ++ [responseWord st v] := rfl
@[simp] theorem State.respond_out (st : Status) (v : Byte) : (s.respond st v).out = s.out := rfl
@[simp] theorem State.respond_past (st : Status) (v : Byte) : (s.respond st v).past = s.past := rfl

@[simp] theorem State.reject_cfg (c : Status) : (s.reject c).cfg = s.cfg := rfl
@[simp] theorem State.reject_crc (c : Status) : (s.reject c).crc = s.crc := rfl
@[simp] theorem State.reject_fr (c : Status) : (s.reject c).fr = s.fr := rfl
@[simp] theorem State.reject_resetPin (c : Status) : (s.reject c).resetPin = s.resetPin := rfl
@[simp] theorem State.reject_cmd (c : Status) : (s.reject c).cmd = s.cmd := rfl
@[simp] theorem State.reject_pin (c : Status) : (s.reject c).pin = s.pin := rfl
@[simp] theorem State.reject_sinkReady (c : Status) : (s.reject c).sinkReady = s.sinkReady := rfl
@[simp] theorem State.reject_env (c : Status) : (s.reject c).env = s.env := rfl
@[simp] theorem State.reject_rsp (c : Status) : (s.reject c).rsp = s.rsp ++ [responseWord c 0x00] := rfl
@[simp] theorem State.reject_out (c : Status) : (s.reject c).out = s.out := rfl
@[simp] theorem State.reject_past (c : Status) : (s.reject c).past = s.past := rfl

@[simp] theorem State.popCmd_cfg : (s.popCmd).cfg = s.cfg := rfl
@[simp] theorem State.popCmd_crc : (s.popCmd).crc = s.crc := rfl
@[simp] theorem State.popCmd_fr : (s.popCmd).fr = s.fr := rfl
@[simp] theorem State.popCmd_resetPin : (s.popCmd).resetPin = s.resetPin := rfl
@[simp] theorem State.popCmd_cmd : (s.popCmd).cmd = s.cmd.tail := rfl
@[simp] theorem State.popCmd_pin : (s.popCmd).pin = s.pin := rfl
@[simp] theorem State.popCmd_sinkReady : (s.popCmd).sinkReady = s.sinkReady := rfl
@[simp] theorem State.popCmd_env : (s.popCmd).env = s.env := rfl
@[simp] theorem State.popCmd_rsp : (s.popCmd).rsp = s.rsp := rfl
@[simp] theorem State.popCmd_out : (s.popCmd).out = s.out := rfl
@[simp] theorem State.popCmd_past : (s.popCmd).past = s.past := rfl

@[simp] theorem State.startFrame_cfg (op len : Byte) (src : Src) (arg : Half) : (s.startFrame op len src arg).cfg = s.cfg := rfl
@[simp] theorem State.startFrame_crc (op len : Byte) (src : Src) (arg : Half) : (s.startFrame op len src arg).crc = s.crc := rfl
@[simp] theorem State.startFrame_fr (op len : Byte) (src : Src) (arg : Half) : (s.startFrame op len src arg).fr = .busy ⟨op, len, src, arg, .head, 0, crcSeed⟩ := rfl
@[simp] theorem State.startFrame_resetPin (op len : Byte) (src : Src) (arg : Half) : (s.startFrame op len src arg).resetPin = s.resetPin := rfl
@[simp] theorem State.startFrame_cmd (op len : Byte) (src : Src) (arg : Half) : (s.startFrame op len src arg).cmd = s.cmd := rfl
@[simp] theorem State.startFrame_pin (op len : Byte) (src : Src) (arg : Half) : (s.startFrame op len src arg).pin = s.pin := rfl
@[simp] theorem State.startFrame_sinkReady (op len : Byte) (src : Src) (arg : Half) : (s.startFrame op len src arg).sinkReady = s.sinkReady := rfl
@[simp] theorem State.startFrame_env (op len : Byte) (src : Src) (arg : Half) : (s.startFrame op len src arg).env = s.env := rfl
@[simp] theorem State.startFrame_rsp (op len : Byte) (src : Src) (arg : Half) : (s.startFrame op len src arg).rsp = s.rsp ++ [responseWord .ok 0x00] := rfl
@[simp] theorem State.startFrame_out (op len : Byte) (src : Src) (arg : Half) : (s.startFrame op len src arg).out = s.out := rfl
@[simp] theorem State.startFrame_past (op len : Byte) (src : Src) (arg : Half) : (s.startFrame op len src arg).past = s.past := rfl

/-- `emitAll` appends the bytes to the history and does nothing else. -/
theorem State.emitAll_eq (bs : List Byte) : s.emitAll bs = { s with out := s.out ++ bs } := by
  induction bs generalizing s with
  | nil => simp [State.emitAll]
  | cons b bs ih =>
    have h := ih (s.emit b)
    rw [show s.emitAll (b :: bs) = (s.emit b).emitAll bs from rfl, h]
    simp

end Sys2Proof.Machine
end

