-- ==== Sys2Proof/Laws/Ops.lean ====
section
/-! SUPPORT. One lemma per shared operation, saying once what it can do: acceptance, the port, the block's turn, a step, a run. -/

namespace Sys2Proof.Machine

/-! ### Acceptance -/

theorem State.canAccept_iff (s : State) : s.canAccept = true ↔ s.resetPin = false ∧ s.fr = .idle := by
  cases h : s.fr <;> simp [State.canAccept, State.busy, Framer.isBusy, h]

theorem State.canAccept_of_busy {s : State} {f : Frame} (h : s.fr = .busy f) : s.canAccept = false := by
  simp [State.canAccept, State.busy, Framer.isBusy, h]

theorem State.busy_iff (s : State) : s.busy = true ↔ ∃ f, s.fr = .busy f := by
  cases h : s.fr <;> simp [State.busy, Framer.isBusy, h]

@[simp] theorem accepted_of_canAccept {s : State} (h : s.canAccept = true) (e : State → State) :
    accepted e s = .next (e s) := by
  simp [accepted, h]

theorem accepted_of_not {s : State} (h : s.canAccept = false) (e : State → State) : accepted e s = .next s := by
  simp [accepted, h]

/-- A guarded operation always answers a next state. -/
theorem accepted_next (e : State → State) (s : State) : ∃ t, accepted e s = .next t := by
  unfold accepted
  split <;> exact ⟨_, rfl⟩

/-! ### The effect of each operation where the port accepts -/

/-- What an operation does to a state that accepts it, as one function of the instruction (R74 to R76, R87, R103). -/
def effectOf (i : Instr) (s : State) : State :=
  match i with
  | .crcClr => { s with crc := crcSeed, rsp := s.rsp ++ [responseWord .ok 0x00] }
  | .crcUpd b => { s with crc := crcStep s.cfg s.crc b, rsp := s.rsp ++ [responseWord .ok 0x00] }
  | .crcRd => { s with rsp := s.rsp ++ [responseWord .ok s.crc] }
  | .mirror b => { s with rsp := s.rsp ++ [responseWord .ok (memRead s.cfg .mir b)] }
  | .frameD8 op d => s.startFrame op 1 .fromArg (byteArg d)
  | .frameD16 op v => s.startFrame op 2 .fromArg v
  | .frameMulti op n =>
    if maxPayload < n.toNat then { s with rsp := s.rsp ++ [responseWord .rejTooLong 0x00] }
    else s.startFrame op (lowByte n) .fromPin 0

/-- `exec` says: where the port accepts, the operation's effect; else nothing. Every claim about `exec` starts here. -/
theorem exec_eq (i : Instr) (s : State) : exec i s = if s.canAccept then .next (effectOf i s) else .next s := by
  cases i <;> simp only [exec, execCrcClr, execCrcUpd, execCrcRd, execMirror, execFrameD8, execFrameD16, execFrameMulti,
    accepted, effectOf] <;> rfl

theorem exec_of_canAccept {s : State} (h : s.canAccept = true) (i : Instr) : exec i s = .next (effectOf i s) := by
  simp [exec_eq, h]

theorem exec_of_not {s : State} (h : s.canAccept = false) (i : Instr) : exec i s = .next s := by
  simp [exec_eq, h]

/-- The accept step of a word where the port accepts: its operation's effect, or the rejection. -/
theorem acceptWord_of_canAccept {s : State} (h : s.canAccept = true) (w : CommandWord) :
    acceptWord w s =
      match decode w with
      | .op i => .next (effectOf i s)
      | .illegal _ => .next { s with rsp := s.rsp ++ [0x0100] } := by
  unfold acceptWord
  cases decode w with
  | op i => exact exec_of_canAccept h i
  | illegal why => simp [accepted_of_canAccept h]; rfl

/-! ### The block's turn -/

theorem blockStep_in_reset {s : State} (h : s.resetPin = true) : blockStep s = .next s := by simp [blockStep, h]

theorem blockStep_idle_nil {s : State} (hf : s.fr = .idle) (hc : s.cmd = []) : blockStep s = .next s := by
  simp [blockStep, hf, idleStep, hc]

theorem blockStep_idle_cons {s : State} {w : CommandWord} {rest : List CommandWord} (hr : s.resetPin = false)
    (hf : s.fr = .idle) (hc : s.cmd = w :: rest) : blockStep s = acceptWord w { s with cmd := rest } := by
  simp [blockStep, hf, hr, idleStep, hc, State.popCmd]

theorem blockStep_busy {s : State} {f : Frame} (hr : s.resetPin = false) (hf : s.fr = .busy f) :
    blockStep s = emitStep f s := by
  simp [blockStep, hf, hr]

theorem emitStep_unready {s : State} (f : Frame) (h : s.sinkReady = false) : emitStep f s = .next s := by
  simp [emitStep, h]

theorem emitHead_eq {s : State} {f : Frame} (hs : s.sinkReady = true) (hp : f.phase = .head) {x : Byte}
    (hx : (headerBytes f.opc f.len)[f.idx.toNat]? = some x) :
    emitStep f s = .next { s with out := s.out ++ [x], fr := .busy f.afterHead } := by
  simp [emitStep, hs, hp, emitHead, Frame.headByte, hx, State.emit, State.setFr]

theorem emitPayl_fromArg {s : State} {f : Frame} (hs : s.sinkReady = true) (hp : f.phase = .payl) (ha : f.src = .fromArg) :
    emitStep f s = .next { s with out := s.out ++ [f.argByte], fr := .busy (f.afterPayl s.cfg f.argByte) } := by
  simp [emitStep, hs, hp, emitPayl, Frame.payloadByte, ha, State.emit, State.setFr]

theorem emitPayl_fromPin {s : State} {f : Frame} (hs : s.sinkReady = true) (hp : f.phase = .payl) (ha : f.src = .fromPin)
    {x : Byte} {rest : List Byte} (hx : s.pin = x :: rest) :
    emitStep f s = .next { s with pin := rest, out := s.out ++ [x], fr := .busy (f.afterPayl s.cfg x) } := by
  simp [emitStep, hs, hp, emitPayl, Frame.payloadByte, ha, State.takePin, hx, State.emit, State.setFr]

theorem emitPayl_starved {s : State} {f : Frame} (hp : f.phase = .payl) (ha : f.src = .fromPin) (hx : s.pin = []) :
    emitStep f s = .next s := by
  simp [emitStep, hp, emitPayl, Frame.payloadByte, ha, State.takePin, hx]

theorem emitCsum_eq {s : State} {f : Frame} (hs : s.sinkReady = true) (hp : f.phase = .csum) :
    emitStep f s = .next { s with out := s.out ++ [f.fcrc], fr := .busy { f with phase := .tail } } := by
  simp [emitStep, hs, hp, emitCsum, State.emit, State.setFr]

theorem emitTail_eq {s : State} {f : Frame} (hs : s.sinkReady = true) (hp : f.phase = .tail) :
    emitStep f s = .next { s with out := s.out ++ [etx], fr := .idle } := by
  simp [emitStep, hs, hp, emitTail, State.emit, State.setFr]

/-- Everything an emit step can do when it answers a next state: it is held, or it emits one byte in one of the four phases. -/
theorem emitStep_cases {s t : State} {f : Frame} (h : emitStep f s = .next t) :
    t = s ∨ (s.sinkReady = true ∧
      ((f.phase = .head ∧ ∃ x, (headerBytes f.opc f.len)[f.idx.toNat]? = some x ∧
          t = { s with out := s.out ++ [x], fr := .busy f.afterHead }) ∨
        (f.phase = .payl ∧ f.src = .fromArg ∧
          t = { s with out := s.out ++ [f.argByte], fr := .busy (f.afterPayl s.cfg f.argByte) }) ∨
        (f.phase = .payl ∧ f.src = .fromPin ∧ ∃ x rest, s.pin = x :: rest ∧
          t = { s with pin := rest, out := s.out ++ [x], fr := .busy (f.afterPayl s.cfg x) }) ∨
        (f.phase = .csum ∧ t = { s with out := s.out ++ [f.fcrc], fr := .busy { f with phase := .tail } }) ∨
        (f.phase = .tail ∧ t = { s with out := s.out ++ [etx], fr := .idle }))) := by
  rcases Bool.eq_false_or_eq_true s.sinkReady with hs | hs
  case inr =>
    rw [emitStep_unready f hs] at h
    exact .inl (Host.Outcome.next.inj h).symm
  case inl =>
    cases hp : f.phase with
    | head =>
      cases hx : (headerBytes f.opc f.len)[f.idx.toNat]? with
      | none => simp [emitStep, hs, hp, emitHead, Frame.headByte, hx] at h
      | some x =>
        rw [emitHead_eq hs hp hx] at h
        exact .inr ⟨hs, .inl ⟨rfl, x, rfl, (Host.Outcome.next.inj h).symm⟩⟩
    | payl =>
      cases ha : f.src with
      | fromArg =>
        rw [emitPayl_fromArg hs hp ha] at h
        exact .inr ⟨hs, .inr (.inl ⟨rfl, rfl, (Host.Outcome.next.inj h).symm⟩)⟩
      | fromPin =>
        cases hx : s.pin with
        | nil =>
          rw [emitPayl_starved hp ha hx] at h
          exact .inl (Host.Outcome.next.inj h).symm
        | cons x rest =>
          rw [emitPayl_fromPin hs hp ha hx] at h
          exact .inr ⟨hs, .inr (.inr (.inl ⟨rfl, rfl, x, rest, rfl, (Host.Outcome.next.inj h).symm⟩))⟩
    | csum =>
      rw [emitCsum_eq hs hp] at h
      exact .inr ⟨hs, .inr (.inr (.inr (.inl ⟨rfl, (Host.Outcome.next.inj h).symm⟩)))⟩
    | tail =>
      rw [emitTail_eq hs hp] at h
      exact .inr ⟨hs, .inr (.inr (.inr (.inr ⟨rfl, (Host.Outcome.next.inj h).symm⟩)))⟩

/-- Everything the block's turn can do when it answers a next state: nothing, one accept step, or one emit step. -/
theorem blockStep_cases {s t : State} (h : blockStep s = .next t) :
    t = s ∨
    (s.canAccept = true ∧ ∃ w rest, s.cmd = w :: rest ∧ acceptWord w { s with cmd := rest } = .next t) ∨
    (s.resetPin = false ∧ ∃ f, s.fr = .busy f ∧ emitStep f s = .next t) := by
  rcases Bool.eq_false_or_eq_true s.resetPin with hr | hr
  · rw [blockStep_in_reset hr] at h
    exact .inl (Host.Outcome.next.inj h).symm
  · match hf : s.fr with
    | .busy f =>
      rw [blockStep_busy hr hf] at h
      exact .inr (.inr ⟨hr, f, rfl, h⟩)
    | .idle =>
      match hc : s.cmd with
      | [] =>
        rw [blockStep_idle_nil hf hc] at h
        exact .inl (Host.Outcome.next.inj h).symm
      | w :: rest =>
        rw [blockStep_idle_cons hr hf hc] at h
        exact .inr (.inl ⟨(State.canAccept_iff s).2 ⟨hr, hf⟩, w, rest, rfl, hf ▸ h⟩)

/-! ### Steps and runs -/

theorem step_nil {s : State} (h : s.env = []) : step s = blockStep s := by simp [step, scheduledStep, h]

theorem step_block {s : State} {es : List EnvEvent} (h : s.env = .block :: es) :
    step s = blockStep { s with env := es } := by
  simp [step, scheduledStep, h]

theorem step_environment {s : State} {e : EnvEvent} {es : List EnvEvent} (h : s.env = e :: es) (he : e ≠ .block) :
    step s = .next (State.environment { s with env := es } e) := by
  cases e <;> simp_all [step, scheduledStep]

@[simp] theorem runSteps_zero (s : State) : runSteps 0 s = .next s := rfl

theorem runSteps_succ (k : Nat) (s : State) :
    runSteps (k + 1) s =
      match step s with
      | .next t => runSteps k t
      | .fault r => .fault r
      | .refused r => .refused r := by
  have h : Sys2Proof.core.step s = step s := rfl
  simp only [runSteps, Host.Core.run, h]
  cases step s <;> rfl

/-- The first step of a run taken off, when it is known. -/
theorem runSteps_succ_of_step {k : Nat} {s t : State} (h : step s = .next t) : runSteps (k + 1) s = runSteps k t := by
  rw [runSteps_succ, h]

/-- A run continued. -/
theorem runSteps_add {j k : Nat} {s t : State} (h : runSteps j s = .next t) : runSteps (j + k) s = runSteps k t := by
  induction j generalizing s with
  | zero => rw [runSteps_zero] at h; cases h; simp
  | succ j ih =>
    rw [show j + 1 + k = (j + k) + 1 by omega, runSteps_succ]
    rw [runSteps_succ] at h
    cases hs : step s with
    | next u => rw [hs] at h; exact ih h
    | fault r => rw [hs] at h; cases h
    | refused r => rw [hs] at h; cases h

/-- A state from which a step goes nowhere stays as it is for ever. -/
theorem runSteps_of_fixed {s : State} (h : step s = .next s) (k : Nat) : runSteps k s = .next s := by
  induction k with
  | zero => rfl
  | succ k ih => rw [runSteps_succ_of_step h, ih]

end Sys2Proof.Machine
end

