-- ==== Sys2Proof/Laws/Framer.lean ====
section
/-! SUPPORT. What each emit step does to a frame that has its invariant: it keeps the invariant, appends one byte to what is
emitted and takes one from the steps left (42_framer.md R104 to R108). -/

namespace Sys2Proof.Machine

theorem toNat_succ_of_lt {i : Byte} (h : i.toNat < 255) : (i + 1).toNat = i.toNat + 1 := by
  rw [BitVec.toNat_add]
  simp
  omega

theorem checksum_append_singleton (c : Config) (p : List Byte) (x : Byte) :
    checksum c (p ++ [x]) = crcStep c (checksum c p) x := by
  simp [checksum, checksumFrom]

theorem length_frameBytes (c : Config) (op : Byte) (p : List Byte) : (frameBytes c op p).length = p.length + 8 := by
  simp [frameBytes, headerBytes]

theorem length_argPayload (f : Frame) : f.argPayload.length = min f.len.toNat 2 := by
  simp [Frame.argPayload, d16Payload]

/-- A prefix of the frame's own `ARG` payload is never longer than it. -/
theorem Frame.Inv.sofar_le {c : Config} {f : Frame} {sofar : List Byte} (h : f.Inv c sofar) :
    sofar.length ≤ f.len.toNat := by
  have hp := h.at_phase
  cases hph : f.phase <;> simp only [hph] at hp
  · simp [hp.2]
  · omega
  · omega
  · omega

/-- `HEAD`: there is a byte to emit, and after it the invariant holds again. -/
theorem Frame.Inv.afterHead {c : Config} {f : Frame} {sofar : List Byte} (h : f.Inv c sofar) (hp : f.phase = .head) :
    ∃ x, (headerBytes f.opc f.len)[f.idx.toNat]? = some x ∧ f.afterHead.Inv c sofar ∧
      f.afterHead.emitted sofar = f.emitted sofar ++ [x] ∧ f.afterHead.stepsLeft + 1 = f.stepsLeft ∧
      f.afterHead.missing = f.missing ∧ f.afterHead.opc = f.opc ∧ f.afterHead.len = f.len ∧ f.afterHead.src = f.src ∧
      f.afterHead.arg = f.arg := by
  have hph := h.at_phase
  simp only [hp] at hph
  obtain ⟨hi, rfl⟩ := hph
  have hlt : f.idx.toNat < (headerBytes f.opc f.len).length := by simp [headerBytes]; omega
  refine ⟨_, List.getElem?_eq_getElem hlt, ?_⟩
  unfold Frame.afterHead
  by_cases h5 : f.idx.toNat < 5
  · have hs : (f.idx + 1).toNat = f.idx.toNat + 1 := toNat_succ_of_lt (by omega)
    rw [if_pos h5]
    refine ⟨⟨h.len_le, h.fcrc_eq, h.from_arg, h.from_pin, ?_⟩, ?_, ?_, ?_, rfl, rfl, rfl, rfl⟩
    · simp only [hp, hs, and_true]
      omega
    · simp only [Frame.emitted, hp, hs]
      exact (List.take_concat_get' _ _ hlt).symm
    · simp only [Frame.stepsLeft, hp, hs]
      omega
    · simp only [Frame.missing, hp]
  · have h5' : f.idx.toNat = 5 := by omega
    have hall : (headerBytes f.opc f.len).take f.idx.toNat ++ [(headerBytes f.opc f.len)[f.idx.toNat]] =
        headerBytes f.opc f.len := by
      rw [List.take_concat_get' _ _ hlt, h5']
      rfl
    rw [if_neg h5]
    by_cases h0 : f.len = 0
    · rw [if_pos h0]
      refine ⟨⟨h.len_le, h.fcrc_eq, h.from_arg, h.from_pin, ?_⟩, ?_, ?_, ?_, rfl, rfl, rfl, rfl⟩
      · simp [h0]
      · simp only [Frame.emitted, hp, List.append_nil]
        exact hall.symm
      · simp [Frame.stepsLeft, hp, h0, h5']
      · simp [Frame.missing, hp, h0]
    · have hpos : 0 < f.len.toNat := by
        rcases Nat.eq_zero_or_pos f.len.toNat with hz | hz
        · exact absurd (BitVec.eq_of_toNat_eq (by simpa using hz)) h0
        · exact hz
      rw [if_neg h0]
      refine ⟨⟨h.len_le, h.fcrc_eq, h.from_arg, h.from_pin, ?_⟩, ?_, ?_, ?_, rfl, rfl, rfl, rfl⟩
      · simpa using hpos
      · simp only [Frame.emitted, hp, List.append_nil]
        exact hall.symm
      · simp [Frame.stepsLeft, hp, h5']
        omega
      · simp [Frame.missing, hp]

/-- `PAYL` from `ARG`: the byte is the next one of the frame's payload. -/
theorem Frame.Inv.argByte {c : Config} {f : Frame} {sofar : List Byte} (h : f.Inv c sofar) (hp : f.phase = .payl)
    (ha : f.src = .fromArg) : sofar ++ [f.argByte] <+: f.argPayload := by
  have hph := h.at_phase
  simp only [hp] at hph
  obtain ⟨hl, hlt⟩ := hph
  obtain ⟨hlen, hpre⟩ := h.from_arg ha
  obtain ⟨tl, htl⟩ := hpre
  have hlen2 : f.argPayload.length = f.len.toNat := by
    rw [length_argPayload]
    rcases hlen with ⟨h1, -⟩ | h2
    · simp [h1]
    · simp [h2]
  have htl' : tl.length = f.len.toNat - f.idx.toNat := by
    have := congrArg List.length htl
    simp only [List.length_append, hlen2, hl] at this
    omega
  obtain ⟨x, r, rfl⟩ : ∃ x r, tl = x :: r := by
    cases tl with
    | nil => simp at htl'; omega
    | cons x r => exact ⟨x, r, rfl⟩
  have hx : f.argPayload[f.idx.toNat]? = some x := by simp [← htl, ← hl]
  suffices f.argByte = x by
    rw [this, ← htl]
    exact ⟨r, by simp⟩
  have hi : f.idx.toNat = 0 ∨ f.idx.toNat = 1 := by
    rw [length_argPayload] at hlen2
    omega
  unfold Frame.argByte
  rcases hi with hi | hi
  · rw [if_pos (BitVec.eq_of_toNat_eq (by simpa using hi))]
    rw [hi] at hx
    simp only [Frame.argPayload, d16Payload, List.getElem?_take] at hx
    split at hx
    · simpa using hx
    · cases hx
  · rw [if_neg (by intro h0; simp [h0] at hi)]
    rw [hi] at hx
    simp only [Frame.argPayload, d16Payload, List.getElem?_take] at hx
    split at hx
    · simpa using hx
    · cases hx

/-- `PAYL`: after the byte `x`, which from `ARG` is the next one of its payload, the invariant holds again. -/
theorem Frame.Inv.afterPayl {c : Config} {f : Frame} {sofar : List Byte} (h : f.Inv c sofar) (hp : f.phase = .payl)
    (x : Byte) (hx : f.src = .fromArg → sofar ++ [x] <+: f.argPayload) :
    (f.afterPayl c x).Inv c (sofar ++ [x]) ∧ (f.afterPayl c x).emitted (sofar ++ [x]) = f.emitted sofar ++ [x] ∧
      (f.afterPayl c x).stepsLeft + 1 = f.stepsLeft ∧ (f.afterPayl c x).missing + 1 = f.missing ∧
      (f.afterPayl c x).opc = f.opc ∧ (f.afterPayl c x).len = f.len ∧ (f.afterPayl c x).src = f.src ∧
      (f.afterPayl c x).arg = f.arg := by
  have hph := h.at_phase
  simp only [hp] at hph
  obtain ⟨hl, hlt⟩ := hph
  have hle := h.len_le
  have hfc : memRead c .crc (f.fcrc ^^^ x) = checksum c (sofar ++ [x]) := by
    rw [checksum_append_singleton, ← h.fcrc_eq]
    rfl
  simp only [maxPayload] at hle
  unfold Frame.afterPayl
  simp only
  by_cases hn : f.idx.toNat + 1 < f.len.toNat
  · have hs : (f.idx + 1).toNat = f.idx.toNat + 1 := toNat_succ_of_lt (by omega)
    rw [if_pos hn]
    refine ⟨⟨h.len_le, hfc, fun ha => ⟨(h.from_arg ha).1, hx ha⟩, h.from_pin, ?_⟩, ?_, ?_, ?_, rfl, rfl, rfl, rfl⟩
    · simp only [hp, hs, List.length_append, List.length_singleton]
      omega
    · simp [Frame.emitted, hp]
    · simp only [Frame.stepsLeft, hp, hs]
      omega
    · simp only [Frame.missing, hp, hs]
      omega
  · rw [if_neg hn]
    refine ⟨⟨h.len_le, hfc, fun ha => ⟨(h.from_arg ha).1, hx ha⟩, h.from_pin, ?_⟩, ?_, ?_, ?_, rfl, rfl, rfl, rfl⟩
    · simp only [List.length_append, List.length_singleton, and_true]
      omega
    · simp [Frame.emitted, hp]
    · simp only [Frame.stepsLeft, hp]
      omega
    · simp only [Frame.missing, hp]
      omega

/-- `CSUM`: after the checksum the invariant holds again. -/
theorem Frame.Inv.afterCsum {c : Config} {f : Frame} {sofar : List Byte} (h : f.Inv c sofar) (hp : f.phase = .csum) :
    { f with phase := .tail }.Inv c sofar ∧
      Frame.emitted { f with phase := .tail } sofar = f.emitted sofar ++ [f.fcrc] := by
  have hph := h.at_phase
  simp only [hp] at hph
  exact ⟨⟨h.len_le, h.fcrc_eq, h.from_arg, h.from_pin, hph⟩, by simp [Frame.emitted, hp]⟩

/-- `TAIL`: with the last byte the whole frame has been emitted. -/
theorem Frame.Inv.afterTail {c : Config} {f : Frame} {sofar : List Byte} (h : f.Inv c sofar) (hp : f.phase = .tail) :
    sofar.length = f.len.toNat ∧ f.emitted sofar ++ [etx] = frameBytes c f.opc sofar := by
  have hph := h.at_phase
  simp only [hp] at hph
  refine ⟨hph.1, ?_⟩
  simp [Frame.emitted, hp, frameBytes, hph.1, h.fcrc_eq]

/-- What a frame has emitted is the start of every frame that its payload can become. -/
theorem Frame.Inv.emitted_isPrefix {c : Config} {f : Frame} {sofar p : List Byte} (h : f.Inv c sofar) (hs : sofar <+: p)
    (hl : p.length = f.len.toNat) : f.emitted sofar <+: frameBytes c f.opc p := by
  have hph := h.at_phase
  have hlen : BitVec.ofNat 8 p.length = f.len := by rw [hl]; simp
  obtain ⟨r, rfl⟩ := hs
  unfold Frame.emitted frameBytes
  rw [hlen]
  cases hp : f.phase <;> simp only [hp] at hph ⊢
  · exact ((List.take_prefix _ _).trans (List.prefix_append _ _)).trans (List.prefix_append _ _)
  · exact ⟨r ++ [checksum c (sofar ++ r), etx], by simp⟩
  · exact ⟨r ++ [checksum c (sofar ++ r), etx], by simp⟩
  · have hr : r = [] := by
      have := hph.1
      simp only [List.length_append] at hl
      exact List.length_eq_zero_iff.1 (by omega)
    subst hr
    exact ⟨[etx], by simp [h.fcrc_eq]⟩

/-- A frame just accepted has the invariant, with nothing emitted. -/
theorem Frame.Inv.start {c : Config} {f : Frame} (hp : f.phase = .head) (hi : f.idx = 0) (hf : f.fcrc = crcSeed)
    (hl : f.len.toNat ≤ maxPayload) (ha : f.src = .fromArg → f.len = 1 ∧ highByte f.arg = 0 ∨ f.len = 2)
    (hn : f.src = .fromPin → f.arg = 0) : f.Inv c [] ∧ f.emitted [] = [] := by
  refine ⟨⟨hl, by rw [hf]; rfl, fun h => ⟨ha h, List.nil_prefix⟩, hn, ?_⟩, ?_⟩
  · simp [hp, hi]
  · simp [Frame.emitted, hp, hi]

end Sys2Proof.Machine
end

