-- ==== Sys2Proof/Laws/PerInstr.lean ====
section
/-! SUPPORT. Statements made of every instruction as syntax, one lemma per constructor: the fixed fields of its encoding
(30_encoding.md R51, R52). -/

namespace Sys2Proof.Laws.EncodingFields

open Sys2Proof Sys2Proof.Machine

/-- The word of an instruction carries the instruction's `SEL`, and its reserved field is `0000` (R51, R52). -/
def Statement (i : Instr) : Prop := cmdSel (encode i) = i.sel ∧ cmdRsv (encode i) = 0

theorem crcClr : Statement .crcClr := ⟨cmdSel_packCommand _ _ _, cmdRsv_packCommand _ _ _⟩

theorem crcUpd (b : Byte) : Statement (.crcUpd b) := ⟨cmdSel_packCommand _ _ _, cmdRsv_packCommand _ _ _⟩

theorem crcRd : Statement .crcRd := ⟨cmdSel_packCommand _ _ _, cmdRsv_packCommand _ _ _⟩

theorem mirror (b : Byte) : Statement (.mirror b) := ⟨cmdSel_packCommand _ _ _, cmdRsv_packCommand _ _ _⟩

theorem frameD8 (op d : Byte) : Statement (.frameD8 op d) := ⟨cmdSel_packCommand _ _ _, cmdRsv_packCommand _ _ _⟩

theorem frameD16 (op : Byte) (v : Half) : Statement (.frameD16 op v) :=
  ⟨cmdSel_packCommand _ _ _, cmdRsv_packCommand _ _ _⟩

theorem frameMulti (op : Byte) (n : Half) : Statement (.frameMulti op n) :=
  ⟨cmdSel_packCommand _ _ _, cmdRsv_packCommand _ _ _⟩

end Sys2Proof.Laws.EncodingFields
end

