-- ==== Sys2Proof/Laws/Transaction.lean ====
section
/-! SUPPORT. What the response word holds, what a transaction of each kind answers, sequences of transactions, and what a step
can do, said once (00_scope.md R8, 30_encoding.md R56, 42_framer.md R95 to R102). -/

namespace Sys2Proof.Machine

/-- `STATUS` is the high byte of the response word (R56). -/
theorem highByte_responseWord (st : Status) (v : Byte) : highByte (responseWord st v) = statusCode st :=
  highByte_append _ _

/-- `VALUE` is the low byte of the response word (R56). -/
theorem lowByte_responseWord (st : Status) (v : Byte) : lowByte (responseWord st v) = v := lowByte_append _ _

/-- A frame at the transaction level where the port accepts: one response, and the bytes of the frame (R98 to R100). -/
theorem emitFrame_of_canAccept {s : State} (h : s.canAccept = true) (op : Byte) (p : List Byte) :
    emitFrame op p s =
      .next { s with rsp := s.rsp ++ [responseWord .ok 0x00], out := s.out ++ frameBytes s.cfg op p } := by
  simp only [emitFrame, accepted_of_canAccept h, State.emitAll_eq]
  rfl

@[simp] theorem transactAll_nil (s : State) : transactAll [] s = .next s := rfl

/-- The first transaction of a sequence taken off, when its outcome is known. -/
theorem transactAll_cons {t : Transaction} {ts : List Transaction} {s u : State} (h : transact t s = .next u) :
    transactAll (t :: ts) s = transactAll ts u := by
  simp [transactAll, h]

/-- A sequence of transactions continued. -/
theorem transactAll_append {ts us : List Transaction} {s u : State} (h : transactAll ts s = .next u) :
    transactAll (ts ++ us) s = transactAll us u := by
  induction ts generalizing s with
  | nil =>
    rw [transactAll_nil] at h
    cases h
    rfl
  | cons t ts ih =>
    rw [List.cons_append]
    simp only [transactAll] at h ⊢
    cases ht : transact t s with
    | next v =>
      rw [ht] at h
      exact ih h
    | fault r =>
      rw [ht] at h
      cases h
    | refused r =>
      rw [ht] at h
      cases h

/-- Everything a step can do when it answers a next state: the block's turn, or one move of the environment. -/
theorem step_cases {s t : State} (h : step s = .next t) :
    (∃ es, (s.env = [] ∧ es = [] ∨ s.env = .block :: es) ∧ blockStep { s with env := es } = .next t) ∨
    (∃ e es, s.env = e :: es ∧ e ≠ .block ∧ t = State.environment { s with env := es } e) := by
  cases he : s.env with
  | nil =>
    rw [step_nil he, ← show { s with env := [] } = s by rw [← he]] at h
    exact .inl ⟨[], .inl ⟨rfl, rfl⟩, h⟩
  | cons e es =>
    by_cases hb : e = .block
    · subst hb
      rw [step_block he] at h
      exact .inl ⟨es, .inr rfl, h⟩
    · rw [step_environment he hb] at h
      exact .inr ⟨e, es, rfl, hb, (Host.Outcome.next.inj h).symm⟩

end Sys2Proof.Machine
end

