-- ==== Sys2Proof/Tests/Slice0.lean ====
section
/-! SUPPORT. Tests: ill-formed terms that the checks refuse, words written out bit by bit from 30_encoding.md R51 to R53, single
steps from the vectors of 95_test_vectors.md, and for each statement with hypotheses a witness that meets them. -/

namespace Sys2Proof.Tests

open Sys2Proof Sys2Proof.Machine

/-- The state of an outcome that is a next state. -/
def nextOf (o : Out) : Option State :=
  match o with
  | .next t => some t
  | .fault _ => none
  | .refused _ => none

/-- `CRC` after, the responses and the bytes emitted. -/
def seen (o : Out) : Option (Byte × List ResponseWord × List Byte) := (nextOf o).map (fun t => (t.crc, t.rsp, t.out))

/-- The reset state with this value in `CRC`. -/
def withCrc (v : Byte) : State := { State.reset with crc := v }

/-- The reset state with this frame in progress. -/
def sending (f : Frame) : State := { State.reset with fr := .busy f }

/-- A frame of three bytes from `PIN`, opcode `0xA2`, at this place. -/
def pinFrame (phase : Phase) (idx fcrc : Byte) : Frame := ⟨0xA2, 3, .fromPin, 0, phase, idx, fcrc⟩

/-- The frame of `FRAME_D16 AF, 7FFF` at this place. -/
def argFrame (phase : Phase) (idx fcrc : Byte) : Frame := ⟨0xAF, 2, .fromArg, 0x7FFF, phase, idx, fcrc⟩

/-! ### Well-formedness: an ill-formed term for each check, and a well-formed one -/

theorem test_wf_sel : selAssigned 0x50000000 = false ∧ CommandWord.legal 0x50000000 = false := by decide
theorem test_wf_rsv : rsvZero 0x81A30001 = false ∧ CommandWord.legal 0x81A30001 = false := by decide
theorem test_wf_opc : opcZeroWhereRequired 0x20010012 = false ∧ CommandWord.legal 0x20010012 = false := by decide
theorem test_wf_arg : argZeroWhereRequired 0x10000001 = false ∧ CommandWord.legal 0x10000001 = false := by decide
theorem test_wf_argHigh : argHighZeroWhereRequired 0x80A30101 = false ∧ CommandWord.legal 0x80A30101 = false := by decide
theorem test_wf_payload : Transaction.wf ⟨.frameMulti 0xA2 3, [1, 2]⟩ = false ∧ Transaction.wf ⟨.crcClr, [0]⟩ = false := by
  decide
theorem test_wf_legal : CommandWord.legal 0xA0A2FFFF = true ∧ Transaction.wf ⟨.frameMulti 0xA2 2, [1, 2]⟩ = true := by decide

/-! ### Decoding: SEL, RSV, OPC and ARG written out (R51, R53) -/

theorem test_decode_crcClr : decode 0b0001_0000_00000000_0000000000000000 = .op .crcClr := by decide
theorem test_decode_crcUpd : decode 0b0010_0000_00000000_00000000_10110100 = .op (.crcUpd 0xB4) := by decide
theorem test_decode_crcRd : decode 0b0011_0000_00000000_0000000000000000 = .op .crcRd := by decide
theorem test_decode_mirror : decode 0b0100_0000_00000000_00000000_10100010 = .op (.mirror 0xA2) := by decide
theorem test_decode_frameD8 : decode 0b1000_0000_10100011_00000000_00000001 = .op (.frameD8 0xA3 0x01) := by decide
theorem test_decode_frameD16 : decode 0b1001_0000_10101111_0111111111111111 = .op (.frameD16 0xAF 0x7FFF) := by decide
theorem test_decode_frameMulti : decode 0b1010_0000_10100010_0000000011110111 = .op (.frameMulti 0xA2 247) := by decide
theorem test_decode_rsv : decode 0b1010_0001_10100010_0000000011111000 = .illegal .reservedNonzero := by decide

theorem test_encode : encode (.frameD16 0xAF 0x7FFF) = 0x90AF7FFF ∧ encode (.frameD8 0xA3 0x01) = 0x80A30001 := by decide

theorem test_decodeTableWord :
    decodeTableWord 32 0x400000A2 = some (.mirror 0xA2) ∧ decodeTableWord 32 0x40000100 = none := by decide

/-! ### One step of each operation (95_test_vectors.md 2.1 to 2.3; checksum bytes under D1) -/

theorem test_crcClr : seen (acceptWord 0x10000000 (withCrc 0xF4)) = some (0x00, [0x0000], []) := by decide
theorem test_crcClr_stray : seen (acceptWord 0x10000001 (withCrc 0xF4)) = some (0xF4, [0x0100], []) := by decide
theorem test_crcUpd : seen (acceptWord 0x20000034 (withCrc 0x7E)) = some (0xF1, [0x0000], []) := by decide
theorem test_crcUpd_zero : seen (acceptWord 0x20000000 (withCrc 0x01)) = some (0x07, [0x0000], []) := by decide
theorem test_crcRd : seen (acceptWord 0x30000000 (withCrc 0xF1)) = some (0xF1, [0x00F1], []) := by decide
theorem test_crcRd_stray : seen (acceptWord 0x30000001 (withCrc 0xF1)) = some (0xF1, [0x0100], []) := by decide
theorem test_mirror : seen (acceptWord 0x40000012 (withCrc 0x7E)) = some (0x7E, [0x0048], []) := by decide
theorem test_mirror_top : seen (acceptWord 0x40000080 (withCrc 0x00)) = some (0x00, [0x0001], []) := by decide

theorem test_frameD8 : seen (transact ⟨.frameD8 0xA4 0x33, []⟩ (withCrc 0x7E)) =
    some (0x7E, [0x0000], [0x51, 0x78, 0xA4, 0x00, 0x01, 0x00, 0x33, 0x99, 0xFF]) := by decide
theorem test_frameD8_accept : (nextOf (acceptWord 0x80A40033 (withCrc 0x7E))).map (fun t => (t.crc, t.fr, t.out)) =
    some (0x7E, .busy ⟨0xA4, 1, .fromArg, 0x0033, .head, 0, 0⟩, []) := by decide
theorem test_frameD16 : seen (transact ⟨.frameD16 0xBD 0x1234, []⟩ (withCrc 0x7E)) =
    some (0x7E, [0x0000], [0x51, 0x78, 0xBD, 0x00, 0x02, 0x00, 0x34, 0x12, 0xD3, 0xFF]) := by decide
theorem test_frameD16_high_byte : (nextOf (blockStep (sending (argFrame .payl 1 0xF3)))).map (fun t => (t.fr, t.out)) =
    some (.busy (argFrame .csum 0 0xAD), [0x7F]) := by decide
theorem test_frameMulti : seen (transact ⟨.frameMulti 0x51 3, [0x51, 0x78, 0xFF]⟩ (withCrc 0x00)) =
    some (0x00, [0x0000], [0x51, 0x78, 0x51, 0x00, 0x03, 0x00, 0x51, 0x78, 0xFF, 0xB6, 0xFF]) := by decide
theorem test_frameMulti_too_long : seen (acceptWord 0xA0A200F8 (withCrc 0x7E)) = some (0x7E, [0x0200], []) := by decide

/-- The word placed by `withFetchWord` is the one the next step runs. -/
theorem test_withFetchWord :
    (nextOf (step (State.reset.withFetchWord 32 0x40000055))).map (fun t => (t.rsp, t.cmd, t.env)) = some ([0x00AA], [], []) := by
  decide

/-- The reset input cuts a frame short and keeps what was observed (R142). -/
theorem test_reset_in_frame :
    (nextOf (step { sending (pinFrame .head 2 0) with out := [0x51, 0x78], env := [.reset true] })).map
      (fun t => (t.fr, t.out, t.past)) = some (.idle, [], [⟨[], [0x51, 0x78]⟩]) := by decide

/-! ### Invariants of the states the witnesses use -/

theorem inv_pinFrame_head : (pinFrame .head 0 0).Inv Config.d1 [] :=
  ⟨by decide, rfl, (nomatch ·), fun _ => rfl, by decide, rfl⟩

theorem inv_pinFrame_payl : (pinFrame .payl 1 0x07).Inv Config.d1 [0x01] :=
  ⟨by decide, by decide, (nomatch ·), fun _ => rfl, rfl, by decide⟩

theorem inv_pinFrame_tail : (pinFrame .tail 0 0x48).Inv Config.d1 [0x01, 0x02, 0x03] :=
  ⟨by decide, by decide, (nomatch ·), fun _ => rfl, rfl, rfl⟩

theorem inv_argFrame_payl : (argFrame .payl 1 0xF3).Inv Config.d1 [0xFF] :=
  ⟨by decide, by decide, fun _ => ⟨.inr rfl, [0x7F], by decide⟩, (nomatch ·), rfl, by decide⟩

/-- `sending f` with the bytes emitted so far on `OUT` has the invariant of the block. -/
theorem inv_sending {f : Frame} {sofar : List Byte} (h : f.Inv Config.d1 sofar) :
    { sending f with out := f.emitted sofar }.Inv :=
  ⟨(nomatch ·), ⟨[], by simp [Framable], sofar, h, rfl⟩, by simp [sending, State.reset], by simp [sending, State.reset]⟩

theorem inv_reset_asserted : { State.reset with resetPin := true }.Inv :=
  ⟨fun _ => ⟨rfl, rfl, rfl, rfl⟩, ⟨[], by simp [Framable], rfl⟩, by simp [State.reset], by simp [State.reset]⟩

/-! ### Witnesses: for each statement with hypotheses, states and operands that meet them, clause by clause -/

theorem witness_DecodeIsTotalAndDisjoint :
    (∃ r ∈ opcodeRows, r.isWord 0x200000FF = true) ∧ (∀ r ∈ opcodeRows, r.isWord 0x20000100 = false) := by decide

theorem witness_DecodeIffEncode : decode 0x200000B4 = .op (.crcUpd 0xB4) ∧ 0x200000B4 = encode (.crcUpd 0xB4) := by decide

theorem witness_RejIllegalCovers : State.reset.canAccept = true ∧
    cmdSel 0xF0000000 ∈ [0x0#4, 0x5#4, 0x6#4, 0x7#4, 0xB#4, 0xC#4, 0xD#4, 0xE#4, 0xF#4] ∧ cmdRsv 0x98000000 ≠ 0 ∧
    (cmdSel 0x40800000 ∈ [0x1#4, 0x2#4, 0x3#4, 0x4#4] ∧ cmdOpc 0x40800000 ≠ 0) ∧
    (cmdSel 0x30008000 ∈ [0x1#4, 0x3#4] ∧ cmdArg 0x30008000 ≠ 0) ∧
    (cmdSel 0x80FF0100 ∈ [0x2#4, 0x4#4, 0x8#4] ∧ highByte (cmdArg 0x80FF0100) ≠ 0) := by decide

theorem witness_IllegalWordChangesNothing : CommandWord.legal 0x00000000 = false ∧ CommandWord.legal 0x80FF00FF = true ∧
    { State.reset with cmd := [0x00000000] }.resetPin = false ∧ { State.reset with cmd := [0x00000000] }.fr = .idle ∧
    ∃ t, blockStep { sending (pinFrame .head 5 0) with cmd := [0x00000000] } = .next t :=
  ⟨by decide, by decide, rfl, rfl, _, rfl⟩

/-- One word for each arm of the statement, both ranges of `N` at their boundary. -/
theorem witness_OneResponsePerCommand : State.reset.canAccept = true ∧
    decode 0xFFFFFFFF = .illegal .reservedNonzero ∧ decode 0x10000000 = .op .crcClr ∧ decode 0x200000FF = .op (.crcUpd 0xFF) ∧
    decode 0x30000000 = .op .crcRd ∧ decode 0x400000FF = .op (.mirror 0xFF) ∧ decode 0x80FF00FF = .op (.frameD8 0xFF 0xFF) ∧
    decode 0x90FFFFFF = .op (.frameD16 0xFF 0xFFFF) ∧ decode 0xA0FF00F7 = .op (.frameMulti 0xFF 247) ∧
    decode 0xA0FF00F8 = .op (.frameMulti 0xFF 248) := by decide

theorem witness_DecodingComesFirst : State.reset.canAccept = true ∧ CommandWord.legal 0xA1A200F8 = false ∧
    CommandWord.legal 0xA0A200F7 = true ∧ CommandWord.legal 0xA0A200F8 = true := by decide

theorem witness_StepRunsDecodedInstruction :
    { State.reset with cmd := [0x10000000] }.canAccept = true ∧ { State.reset with cmd := [0x10000000] }.env = [] ∧
    { State.reset with cmd := [0x10000000], env := [.block] }.env = .block :: [] ∧ decode 0x10000000 = .op .crcClr ∧
    decodeTableWord 32 0xA0A2FFFF = some (.frameMulti 0xA2 0xFFFF) ∧
    { State.reset with resetPin := true }.resetPin = true ∧ (sending (pinFrame .head 0 0)).busy = true := by decide

theorem witness_CommandPortAcceptsOnlyInIdle :
    (∃ t, blockStep (sending (pinFrame .csum 0 0)) = .next t) ∧
    (∃ t, State.reset.canAccept = true ∧ State.reset.cmd = [] ∧ blockStep State.reset = .next t) ∧
    (∃ t, { State.reset with cmd := [0x30000000] }.canAccept = true ∧ blockStep { State.reset with cmd := [0x30000000] } = .next t) :=
  ⟨⟨_, rfl⟩, ⟨_, rfl, rfl, rfl⟩, ⟨_, rfl, rfl⟩⟩

theorem witness_CommandWhileBusyIsHeld :
    { sending (pinFrame .tail 0 0x48) with cmd := [0x10000000] }.resetPin = false ∧
    { sending (pinFrame .tail 0 0x48) with cmd := [0x10000000] }.sinkReady = true ∧
    ∃ t, blockStep { sending (pinFrame .tail 0 0x48) with cmd := [0x10000000] } = .next t :=
  ⟨rfl, rfl, _, rfl⟩

theorem witness_PinIsTakenOnlyByPayl :
    (∃ t, blockStep { sending (pinFrame .payl 2 0) with pin := [0x03] } = .next t) ∧
    (¬ ∃ f, (sending (pinFrame .head 5 0)).fr = .busy f ∧ f.phase = .payl ∧ f.src = .fromPin) ∧
    (∃ t, blockStep (sending (pinFrame .head 5 0)) = .next t) :=
  ⟨⟨_, rfl⟩, (by rintro ⟨f, h, hp, -⟩; cases h; cases hp), ⟨_, rfl⟩⟩

theorem witness_OutGrowsOnlyByEmitSteps :
    (∃ t, blockStep (sending (pinFrame .head 0 0)) = .next t ∧ (sending (pinFrame .head 0 0)).resetPin = false ∧
      (sending (pinFrame .head 0 0)).sinkReady = true ∧ (pinFrame .head 0 0).phase ≠ .payl) ∧
    (∃ t, blockStep { State.reset with cmd := [0x30000000] } = .next t ∧ State.reset.busy = false) ∧
    (∃ t, blockStep { sending (pinFrame .head 0 0) with sinkReady := false } = .next t) ∧
    { sending (pinFrame .head 0 0) with sinkReady := false }.env = [] ∧
    { sending (pinFrame .head 0 0) with sinkReady := false }.busy = true :=
  ⟨⟨_, rfl, rfl, rfl, by decide⟩, ⟨_, rfl, rfl⟩, ⟨_, rfl⟩, rfl, rfl⟩

theorem witness_SinkStallLosesNothing : { sending (pinFrame .csum 0 0) with sinkReady := false }.busy = true ∧
    { sending (pinFrame .csum 0 0) with sinkReady := false }.sinkReady = false := ⟨rfl, rfl⟩

theorem witness_HeldStepsAndWhatLiftsThem :
    ({ sending (pinFrame .head 0 0) with sinkReady := false }.resetPin = false ∧
      (pinFrame .head 0 0).starved { sending (pinFrame .head 0 0) with sinkReady := false } = false ∧
      (pinFrame .head 0 0).Inv Config.d1 []) ∧
    ((sending (pinFrame .payl 0 0)).resetPin = false ∧ (sending (pinFrame .payl 0 0)).pin = [] ∧
      (sending (pinFrame .payl 0 0)).sinkReady = true) ∧
    { State.reset with cmd := [0x00000000] }.fr = .idle := ⟨⟨rfl, rfl, inv_pinFrame_head⟩, ⟨rfl, rfl, rfl⟩, rfl⟩

theorem witness_CrcClrLoadsSeed : (withCrc 0xF4).canAccept = true ∧ (∃ t, exec .crcClr (withCrc 0xF4) = .next t) ∧
    cmdSel 0x10000001 = 0x1 ∧ BitVec.extractLsb' 0 28 0x10000001#32 ≠ 0 ∧
    cmdSel 0x18000000 = 0x1 ∧ BitVec.extractLsb' 0 28 0x18000000#32 ≠ 0 :=
  ⟨rfl, ⟨_, rfl⟩, by decide, by decide, by decide, by decide⟩

theorem witness_CrcUpdStepsOnce : (withCrc 0x7E).canAccept = true ∧ (withCrc 0x7E).crc = 0x7E ∧ (withCrc 0x00).crc = 0x00 ∧
    (withCrc 0x00).cfg = Config.d1 ∧ (∃ t, exec (.crcUpd 0x34) (withCrc 0x7E) = .next t) ∧
    (∃ t, exec (.crcUpd 0x00) (withCrc 0xFD) = .next t) ∧
    cmdSel 0x20000100 = 0x2 ∧ BitVec.extractLsb' 8 20 0x20000100#32 ≠ 0 ∧
    cmdSel 0x28000000 = 0x2 ∧ BitVec.extractLsb' 8 20 0x28000000#32 ≠ 0 :=
  ⟨rfl, rfl, rfl, rfl, ⟨_, rfl⟩, ⟨_, rfl⟩, by decide, by decide, by decide, by decide⟩

theorem witness_CrcRdReturnsRegister : (withCrc 0xF1).canAccept = true ∧ (withCrc 0xF1).crc = 0xF1 ∧
    (∃ t, exec .crcRd (withCrc 0xF1) = .next t) ∧ cmdSel 0x30000001 = 0x3 ∧ BitVec.extractLsb' 0 28 0x30000001#32 ≠ 0 ∧
    cmdSel 0x38000000 = 0x3 ∧ BitVec.extractLsb' 0 28 0x38000000#32 ≠ 0 :=
  ⟨rfl, rfl, ⟨_, rfl⟩, by decide, by decide, by decide, by decide⟩

theorem witness_ChecksumSequenceComputesChecksum : (withCrc 0x7E).canAccept = true ∧ (withCrc 0x7E).env = [] := ⟨rfl, rfl⟩

theorem witness_CrcIsChecksumOfMergedUpdates : (withCrc 0x7E).canAccept = true ∧
    ∀ t ∈ ([⟨.crcUpd 0x12, []⟩, ⟨.frameMulti 0xA2 1, [0x05]⟩, ⟨.crcRd, []⟩, ⟨.crcUpd 0x34, []⟩] : List Transaction),
      t.wf = true ∧ t.op ≠ .crcClr := by decide

theorem witness_CrcAccess : (withCrc 0x7E).canAccept = true ∧
    (∃ t, step { withCrc 0x7E with env := [.reset true] } = .next t ∧ t.crc ≠ 0x7E) ∧
    (∃ t, step { withCrc 0x7E with cmd := [0x10000000] } = .next t ∧ t.crc ≠ 0x7E) ∧
    (∃ t, step { withCrc 0x7E with cmd := [0x20000034] } = .next t ∧ t.crc ≠ 0x7E) ∧
    (∃ t, exec (.mirror 0x12) (withCrc 0x7E) = .next t) ∧
    (∃ t, (sending (pinFrame .csum 0 0x48)).busy = true ∧ blockStep (sending (pinFrame .csum 0 0x48)) = .next t) :=
  ⟨rfl, ⟨_, rfl, by decide⟩, ⟨_, rfl, by decide⟩, ⟨_, rfl, by decide⟩, ⟨_, rfl⟩, ⟨_, rfl, rfl⟩⟩

theorem witness_D1ChecksumIsLinear : [0x12#8, 0x34#8].length = [0x56#8, 0x78#8].length := rfl

theorem witness_D1OneByteErrorIsSeen : (0x00 : Byte) ≠ 0x01 := by decide

/-- Both ends of the range of bit positions. -/
theorem witness_Rev8ReversesBits : 0 < 8 ∧ 7 < 8 ∧ (rev8 0x01).getLsbD 7 = true := by decide

theorem witness_MirrorReversesByte : State.reset.canAccept = true ∧ cmdSel 0x40000100 = 0x4 ∧
    BitVec.extractLsb' 8 20 0x40000100#32 ≠ 0 ∧ cmdSel 0x48000000 = 0x4 ∧ BitVec.extractLsb' 8 20 0x48000000#32 ≠ 0 := by decide

theorem witness_MirrorLineMirrorsEachByte : (withCrc 0x7E).canAccept = true := rfl

theorem witness_CrcAndMirrorFrame : (∃ t, exec .crcClr (withCrc 0x7E) = .next t) ∧ (∃ t, exec (.crcUpd 0x34) (withCrc 0x7E) = .next t) ∧
    (∃ t, exec .crcRd (withCrc 0x7E) = .next t) ∧ (∃ t, exec (.mirror 0x34) (withCrc 0x7E) = .next t) :=
  ⟨⟨_, rfl⟩, ⟨_, rfl⟩, ⟨_, rfl⟩, ⟨_, rfl⟩⟩

theorem witness_FrameBytesLayout : (List.replicate 247 0xFF#8).length ≤ 247 ∧ ([] : List Byte).length ≤ 247 ∧
    frameBytes Config.d1 0xA2 [] = frameBytes Config.d1 0xA2 [] := ⟨by rw [List.length_replicate], by decide, rfl⟩

theorem witness_FrameD8EmitsNineBytes : State.reset.canAccept = true ∧ State.reset.cfg = Config.d1 ∧
    (∃ t, exec (.frameD8 0xA3 0x01) State.reset = .next t) ∧ cmdSel 0x81A30001 = 0x8 ∧
    BitVec.extractLsb' 24 4 0x81A30001#32 ≠ 0 ∧ cmdSel 0x80A30101 = 0x8 ∧ BitVec.extractLsb' 8 8 0x80A30101#32 ≠ 0 :=
  ⟨rfl, rfl, ⟨_, rfl⟩, by decide, by decide, by decide, by decide⟩

theorem witness_FrameD16EmitsTenBytes : State.reset.canAccept = true ∧ State.reset.cfg = Config.d1 ∧
    (∃ t, exec (.frameD16 0xAF 0x7FFF) State.reset = .next t) ∧ cmdSel 0x98AF7FFF = 0x9 ∧
    BitVec.extractLsb' 24 4 0x98AF7FFF#32 ≠ 0 :=
  ⟨rfl, rfl, ⟨_, rfl⟩, by decide, by decide⟩

/-- Payloads of `N = 0`, `247` and `248` bytes, and of 48. -/
theorem witness_FrameMultiEmitsFrame : State.reset.canAccept = true ∧ ([] : List Byte).length = (0#16).toNat ∧
    (List.replicate 247 0xFF#8).length = (247#16).toNat ∧ (List.replicate 248 0xFF#8).length = (248#16).toNat ∧
    (List.replicate 48 0xFF#8).length = 48 ∧ cmdSel 0xA1A20003 = 0xA ∧ BitVec.extractLsb' 24 4 0xA1A20003#32 ≠ 0 :=
  ⟨rfl, rfl, List.length_replicate, List.length_replicate, List.length_replicate, by decide, by decide⟩

theorem witness_ImageRowFramesMirroredLine : State.reset.canAccept = true ∧ (List.replicate 247 0x01#8).length ≤ 247 ∧
    247 < (List.replicate 248 0x01#8).length ∧ (List.replicate 248 0x01#8).length < 65536 :=
  ⟨rfl, by rw [List.length_replicate], by rw [List.length_replicate]; decide, by rw [List.length_replicate]; decide⟩

theorem witness_WellFormedFrameIffBuilt :
    wellFormedFrame Config.d1 [0x51, 0x78, 0xA3, 0x00, 0x01, 0x00, 0x01, 0x07, 0xFF] = true ∧
    [0x51, 0x78, 0xA3, 0x00, 0x01, 0x00, 0x01, 0x07, 0xFF] = frameBytes Config.d1 0xA3 [0x01] := by decide

theorem witness_StreamCutsBackIntoFrames : Framable [(0xA2, [0x01]), (0xA6, [])] ∧
    ([(0xA2, [0x01]), (0xA6, [])] : List (Byte × List Byte)).length ≤ 2 := by
  simp [Framable, maxPayload]

theorem witness_AcceptStepStartsFrame : State.reset.canAccept = true ∧ (247#16).toNat ≤ 247 ∧ 247 < (248#16).toNat ∧
    CommandWord.legal 0x81A30001 = false := by decide

theorem witness_FramerFrame : (∃ t, exec (.frameD8 0xA3 0x01) (withCrc 0x7E) = .next t) ∧
    (∃ t, exec (.frameD16 0xAF 0x7FFF) (withCrc 0x7E) = .next t) ∧ (∃ t, exec (.frameMulti 0xA2 247) (withCrc 0x7E) = .next t) ∧
    (∃ t, exec (.frameMulti 0xA2 248) (withCrc 0x7E) = .next t) ∧ (∃ t, blockStep (sending (pinFrame .head 0 0)) = .next t) ∧
    (∃ t, blockStep { sending (pinFrame .payl 0 0) with pin := [0x01] } = .next t) ∧
    (∃ t, blockStep (sending (argFrame .payl 1 0xF3)) = .next t) ∧ (∃ t, blockStep (sending (pinFrame .tail 0 0)) = .next t) :=
  ⟨⟨_, rfl⟩, ⟨_, rfl⟩, ⟨_, rfl⟩, ⟨_, rfl⟩, ⟨_, rfl⟩, ⟨_, rfl⟩, ⟨_, rfl⟩, ⟨_, rfl⟩⟩

/-- `IDX` at both ends of its range, and a frame without payload. -/
theorem witness_HeadStepEmitsHeader : (sending (pinFrame .head 0 0)).resetPin = false ∧
    (sending (pinFrame .head 0 0)).sinkReady = true ∧ (sending (pinFrame .head 0 0)).env = [] ∧
    [0x51#8, 0x78, 0xA2, 0x00, 3, 0x00][(pinFrame .head 0 0).idx.toNat]? = some 0x51 ∧
    [0x51#8, 0x78, 0xA2, 0x00, 3, 0x00][(pinFrame .head 5 0).idx.toNat]? = some 0x00 ∧
    { pinFrame .head 5 0 with len := 0 }.len = 0 := ⟨rfl, rfl, rfl, rfl, rfl, rfl⟩

theorem witness_PaylStepEmitsPayload :
    ((sending (argFrame .payl 0 0)).resetPin = false ∧ (argFrame .payl 0 0).src = .fromArg ∧ (argFrame .payl 0 0).idx = 0 ∧
      (argFrame .payl 0 0).len = 2 ∧ { argFrame .payl 0 0 with len := 1, arg := 0x0001 }.len = 1) ∧
    (∃ rest, { sending (pinFrame .payl 2 0) with pin := [0x03] }.pin = 0x03 :: rest) ∧
    ({ sending (pinFrame .payl 0 0) with pin := [1, 2, 3, 4] }.pin = [1, 2, 3] ++ [4] ∧
      [1#8, 2, 3].length = (pinFrame .payl 0 0).len.toNat ∧ [1#8, 2, 3] ≠ []) ∧
    ((sending (pinFrame .payl 0 0)).pin = [] ∧ (sending (pinFrame .payl 0 0)).env = []) :=
  ⟨⟨rfl, rfl, rfl, rfl, rfl⟩, ⟨_, rfl⟩, ⟨rfl, rfl, by decide⟩, rfl, rfl⟩

theorem witness_CsumAndTailSteps : (sending (pinFrame .csum 0 0x48)).resetPin = false ∧
    (sending (pinFrame .csum 0 0x48)).sinkReady = true ∧ (pinFrame .csum 0 0x48).phase = .csum ∧
    (sending (pinFrame .tail 0 0x48)).resetPin = false ∧ (sending (pinFrame .tail 0 0x48)).sinkReady = true ∧
    (pinFrame .tail 0 0x48).phase = .tail := ⟨rfl, rfl, rfl, rfl, rfl, rfl⟩

/-- Each of the three forms, `FRAME_MULTI` at both ends of the range of `N`, with step counts at the bounds of the phases. -/
theorem witness_FrameStepCount : State.reset.canAccept = true ∧ State.reset.sinkReady = true ∧ State.reset.env = [] ∧
    (∃ op d, Instr.frameD8 0xA3 0x01 = .frameD8 op d) ∧ (∃ op v, Instr.frameD16 0xAF 0x7FFF = .frameD16 op v) ∧
    ((0#16).toNat ≤ 247 ∧ ([] : List Byte).length = (0#16).toNat) ∧
    ((247#16).toNat ≤ 247 ∧ (List.replicate 247 0xFF#8).length = (247#16).toNat) ∧
    (∀ k ∈ [1, 6, 7, 8, 9], 1 ≤ k ∧ k ≤ 1 + 8) :=
  ⟨rfl, rfl, rfl, ⟨_, _, rfl⟩, ⟨_, _, rfl⟩, ⟨by decide, rfl⟩, ⟨by decide, List.length_replicate⟩, by decide⟩

theorem witness_ByteSerialAgreesWithTransaction : Transaction.wf ⟨.frameMulti 0xA2 2, [0x01, 0x02]⟩ = true ∧
    Transaction.wf ⟨.frameMulti 0xA2 248, []⟩ = true ∧ (withCrc 0x7E).canAccept = true ∧ (withCrc 0x7E).sinkReady = true ∧
    (withCrc 0x7E).env = [] := by decide

theorem witness_ProgramRunsAsItsTransactions :
    (∀ t ∈ ([⟨.crcUpd 0x12, []⟩, ⟨.frameMulti 0xA2 1, [0x05]⟩, ⟨.frameMulti 0xA2 248, []⟩] : List Transaction),
      t.wf = true) ∧
    State.reset.canAccept = true ∧ State.reset.sinkReady = true ∧ State.reset.env = [] ∧ State.reset.cmd = [] := by decide

/-- A run with a word presented and one still to be presented is not over, and it has no reset and no withdrawing in it. -/
theorem test_runIsOver_counts_words_to_come :
    { State.reset with cmd := [0x10000000], env := [.block, .present 0x30000000] }.wordsToCome = [0x10000000, 0x30000000] ∧
    { State.reset with env := [.block, .present 0x30000000] }.runIsOver = false ∧
    { State.reset with env := [.block, .offer 0x01] }.runIsOver = true := by decide

theorem witness_RunIsOverWhenEveryWordIsAnswered :
    (∀ e ∈ [EnvEvent.present 0x30000000, .block, .sink false], e ≠ .reset true ∧ e ≠ .withdrawCmd) ∧
    (∃ t, runSteps 2 { State.reset with env := [.present 0x30000000, .block, .sink false] } = .next t ∧
      t.runIsOver = true ∧ t.rsp = [0x0000]) ∧
    { State.reset with env := [.offer 0x01, .reset false] }.runIsOver = true ∧
    (∀ e ∈ [EnvEvent.offer 0x01, .reset false], e ≠ .reset true) ∧
    (∃ t, runSteps 2 { State.reset with env := [.offer 0x01, .reset false] } = .next t) :=
  ⟨by decide, ⟨_, rfl, by decide, by decide⟩, by decide, by decide, _, rfl⟩

/-- In mid-payload of a frame from `PIN`, and of one from `ARG`. -/
theorem witness_FrameCompletesFromAnyPoint :
    ((pinFrame .payl 1 0x07).Inv Config.d1 [0x01] ∧ [0x02#8, 0x03].length = (pinFrame .payl 1 0x07).missing ∧
      { sending (pinFrame .payl 1 0x07) with pin := [0x02, 0x03, 0x99] }.pin = [0x02, 0x03] ++ [0x99]) ∧
    ((argFrame .payl 1 0xF3).Inv Config.d1 [0xFF] ∧ [0x7F#8].length = (argFrame .payl 1 0xF3).missing ∧
      [0xFF] ++ [0x7F] = (argFrame .payl 1 0xF3).argPayload ∧ (sending (argFrame .payl 1 0xF3)).pin = []) :=
  ⟨⟨inv_pinFrame_payl, rfl, rfl⟩, inv_argFrame_payl, rfl, by decide, rfl⟩

/-- A stall, a late payload byte and a step, in the middle of a frame. -/
theorem witness_FrameIsOneFrameUnderEverySchedule :
    (pinFrame .payl 1 0x07).Inv Config.d1 [0x01] ∧
    (∀ e ∈ [EnvEvent.sink false, .block, .offer 0x02, .sink true, .block], e ≠ .reset true) ∧
    ∃ t, runSteps 5 { sending (pinFrame .payl 1 0x07) with
      out := (pinFrame .payl 1 0x07).emitted [0x01],
      env := [.sink false, .block, .offer 0x02, .sink true, .block] } = .next t :=
  ⟨inv_pinFrame_payl, by decide, _, rfl⟩

theorem witness_FramingIsPure : Transaction.wf ⟨.frameMulti 0xA2 0, []⟩ = true ∧ 1 < instrSteps (.frameMulti 0xA2 0) ∧
    (withCrc 0x7E).cfg = Config.d1 ∧ (withCrc 0x7E).canAccept = true ∧ (withCrc 0x7E).sinkReady = true ∧
    (withCrc 0x7E).env = [] := ⟨by decide, by decide, rfl, rfl, rfl, rfl⟩

theorem witness_HostDutyOnPin : (247#16).toNat ≤ 247 ∧ State.reset.canAccept = true ∧ State.reset.env = [] ∧
    State.reset.sinkReady = true ∧ State.reset.pin.length < (1#16).toNat ∧
    { State.reset with pin := List.replicate 2 0x01 }.pin.length < (3#16).toNat ∧
    ({ State.reset with pin := [1, 2, 3] }.pin = [1, 2] ++ [3] ∧ [1#8, 2].length = (2#16).toNat) ∧
    [1#8].length ≠ (2#16).toNat := by decide

theorem witness_NoCancellation : (∃ t, blockStep (sending (pinFrame .head 0 0)) = .next t) ∧
    (pinFrame .head 0 0).Inv Config.d1 [] ∧ (∃ t, blockStep (sending (pinFrame .tail 0 0x48)) = .next t) ∧
    (pinFrame .tail 0 0x48).Inv Config.d1 [0x01, 0x02, 0x03] :=
  ⟨⟨_, rfl⟩, inv_pinFrame_head, ⟨_, rfl⟩, inv_pinFrame_tail⟩

theorem witness_BlockNeverStops : { sending (pinFrame .payl 1 0x07) with out := (pinFrame .payl 1 0x07).emitted [0x01] }.Inv ∧
    State.reset.canAccept = true ∧ CommandWord.legal 0x00000000 = false ∧ 247 < (248#16).toNat :=
  ⟨inv_sending inv_pinFrame_payl, rfl, by decide, by decide⟩

theorem witness_RejectionLeavesNoTrace : (withCrc 0x7E).canAccept = true ∧
    ∃ t, acceptWord 0xA0A200F8 (withCrc 0x7E) = .next t ∧ t.rsp = (withCrc 0x7E).rsp ++ [0x0200] ∧ highByte 0x0200 ≠ 0x00 :=
  ⟨rfl, _, rfl, by decide, by decide⟩

theorem witness_ResetValues : (sending (pinFrame .head 2 0)).resetPin = false := rfl

/-- While asserted; on asserting it in the middle of a frame; on releasing it; on a turn with a frame in progress; where the
port accepts. -/
theorem witness_ResetInput : { State.reset with resetPin := true }.Inv ∧
    { sending (pinFrame .payl 1 0x07) with out := (pinFrame .payl 1 0x07).emitted [0x01], env := [.reset true] }.Inv ∧
    { State.reset with resetPin := true, env := [.reset false] }.Inv ∧
    ({ sending (pinFrame .tail 0 0x48) with out := (pinFrame .tail 0 0x48).emitted [0x01, 0x02, 0x03] }.Inv ∧
      ∃ t, blockStep { sending (pinFrame .tail 0 0x48) with
        out := (pinFrame .tail 0 0x48).emitted [0x01, 0x02, 0x03] } = .next t) ∧
    (withCrc 0x7E).Inv ∧ (withCrc 0x7E).canAccept = true :=
  ⟨inv_reset_asserted,
    ⟨(nomatch ·), (inv_sending inv_pinFrame_payl).history, by simp [sending, State.reset], by simp [sending, State.reset]⟩,
    ⟨fun _ => ⟨rfl, rfl, rfl, rfl⟩, ⟨[], by simp [Framable], rfl⟩, by simp [State.reset], by simp [State.reset]⟩,
    ⟨inv_sending inv_pinFrame_tail, _, rfl⟩,
    ⟨(nomatch ·), ⟨[], by simp [Framable], rfl⟩, by simp [withCrc, State.reset], by simp [withCrc, State.reset]⟩, rfl⟩

theorem witness_ResetCutsFrameShort :
    { sending (pinFrame .head 2 0) with env := [.reset true] }.env = .reset true :: [] ∧
    { sending (pinFrame .head 2 0) with env := [.reset true] }.resetPin = false ∧
    { State.reset with env := [.reset true] }.resetPin = false := ⟨rfl, rfl, rfl⟩

/-- One schedule for each move. -/
theorem witness_EnvironmentMovesFrame : { State.reset with env := [.present 0x30000000] }.env = .present 0x30000000 :: [] ∧
    { State.reset with env := [.withdrawCmd] }.env = .withdrawCmd :: [] ∧
    { State.reset with env := [.offer 0x01] }.env = .offer 0x01 :: [] ∧
    { State.reset with env := [.withdrawPin] }.env = .withdrawPin :: [] ∧
    { State.reset with env := [.sink false] }.env = .sink false :: [] ∧
    { State.reset with env := [.reset true] }.env = .reset true :: [] ∧
    { State.reset with env := [.reset false] }.env = .reset false :: [] := ⟨rfl, rfl, rfl, rfl, rfl, rfl, rfl⟩

theorem witness_TablesNeverChange : (∃ t, step { State.reset with cmd := [0x10000000] } = .next t) ∧
    (∃ t, step { sending (pinFrame .head 2 0) with env := [.reset true] } = .next t) := ⟨⟨_, rfl⟩, ⟨_, rfl⟩⟩

theorem witness_InvariantIsKept :
    { sending (pinFrame .tail 0 0x48) with out := (pinFrame .tail 0 0x48).emitted [0x01, 0x02, 0x03] }.Inv ∧
    ∃ t, step { sending (pinFrame .tail 0 0x48) with out := (pinFrame .tail 0 0x48).emitted [0x01, 0x02, 0x03] } = .next t :=
  ⟨inv_sending inv_pinFrame_tail, _, rfl⟩

end Sys2Proof.Tests
end

section
/-! SUPPORT. The frame of an accept step and of an emit step, each as one equation, and what these steps do not read
(10_state.md R11, R14 to R16). -/

namespace Sys2Proof.Machine

/-! ### The accept step -/

/-- An operation writes at most `CRC` and `FR`, and answers one response word (R16). -/
theorem effectOf_frame (i : Instr) (s : State) :
    ∃ c fr q, effectOf i s = { s with crc := c, fr := fr, rsp := s.rsp ++ [q] } := by
  cases i with
  | crcClr | crcUpd | crcRd | mirror | frameD8 | frameD16 => exact ⟨_, _, _, rfl⟩
  | frameMulti op n =>
    by_cases hn : maxPayload < n.toNat
    · exact ⟨s.crc, s.fr, _, if_pos hn⟩
    · exact ⟨_, _, _, if_neg hn⟩

/-- The accept step of any word, legal or not, writes at most `CRC` and `FR` and answers one response word (R16). -/
theorem acceptWord_frame {s : State} (h : s.canAccept = true) (w : CommandWord) :
    ∃ c fr q, acceptWord w s = .next { s with crc := c, fr := fr, rsp := s.rsp ++ [q] } := by
  rw [acceptWord_of_canAccept h]
  cases decode w with
  | op i =>
    obtain ⟨c, fr, q, hi⟩ := effectOf_frame i s
    exact ⟨c, fr, q, congrArg _ hi⟩
  | illegal why => exact ⟨s.crc, s.fr, _, rfl⟩

theorem effectOf_withPin (i : Instr) (s : State) (p : List Byte) :
    effectOf i { s with pin := p } = { effectOf i s with pin := p } := by
  cases i with
  | crcClr | crcUpd | crcRd | mirror | frameD8 | frameD16 => rfl
  | frameMulti op n =>
    simp only [effectOf]
    split <;> rfl

/-- Acceptance does not look at the offered bytes (R14). -/
theorem acceptWord_withPin {s t : State} {w : CommandWord} (h : s.canAccept = true) (ht : acceptWord w s = .next t)
    (p : List Byte) : acceptWord w { s with pin := p } = .next { t with pin := p } := by
  have hp : { s with pin := p }.canAccept = true := h
  rw [acceptWord_of_canAccept h] at ht
  rw [acceptWord_of_canAccept hp]
  cases hw : decode w with
  | op i =>
    rw [hw] at ht
    cases ht
    exact congrArg _ (effectOf_withPin i s p)
  | illegal why =>
    rw [hw] at ht
    cases ht
    rfl

/-- Only `CRC_CLR` and `CRC_UPD` write `CRC` (R11). -/
theorem effectOf_crc {i : Instr} (hclr : i ≠ .crcClr) (hupd : ∀ b, i ≠ .crcUpd b) (s : State) :
    (effectOf i s).crc = s.crc := by
  cases i with
  | crcClr => exact absurd rfl hclr
  | crcUpd b => exact absurd rfl (hupd b)
  | crcRd | mirror | frameD8 | frameD16 => rfl
  | frameMulti op n =>
    simp only [effectOf]
    split <;> rfl

/-- Only `CRC_CLR`, `CRC_UPD` and `CRC_RD` depend on or write `CRC` (R11). -/
theorem effectOf_withCrc {i : Instr} (hclr : i ≠ .crcClr) (hrd : i ≠ .crcRd) (hupd : ∀ b, i ≠ .crcUpd b) (s : State)
    (v : Byte) : effectOf i { s with crc := v } = { effectOf i s with crc := v } := by
  cases i with
  | crcClr => exact absurd rfl hclr
  | crcRd => exact absurd rfl hrd
  | crcUpd b => exact absurd rfl (hupd b)
  | mirror | frameD8 | frameD16 => rfl
  | frameMulti op n =>
    simp only [effectOf]
    split <;> rfl

/-- An accept step that changes `CRC` is that of `CRC_CLR` or of a `CRC_UPD` (R11). -/
theorem acceptWord_crc_ne {s t : State} {w : CommandWord} (h : s.canAccept = true) (ht : acceptWord w s = .next t)
    (hne : t.crc ≠ s.crc) :
    (decode w = .op .crcClr ∧ t.crc = crcSeed) ∨ ∃ b, decode w = .op (.crcUpd b) ∧ t.crc = crcStep s.cfg s.crc b := by
  rw [acceptWord_of_canAccept h] at ht
  cases hw : decode w with
  | illegal why =>
    rw [hw] at ht
    cases ht
    exact absurd rfl hne
  | op i =>
    rw [hw] at ht
    cases ht
    by_cases hclr : i = .crcClr
    · subst hclr
      exact .inl ⟨rfl, rfl⟩
    · by_cases hupd : ∃ b, i = .crcUpd b
      · obtain ⟨b, rfl⟩ := hupd
        exact .inr ⟨b, rfl, rfl⟩
      · exact absurd (effectOf_crc hclr (fun b hb => hupd ⟨b, hb⟩) s) hne

/-! ### The emit step -/

/-- An emit step writes at most `FR`, the offered bytes and the history `OUT`. -/
theorem emitStep_frame {s t : State} {f : Frame} (h : emitStep f s = .next t) :
    ∃ fr p o, t = { s with fr := fr, pin := p, out := o } := by
  obtain rfl | ⟨-, ⟨-, x, -, rfl⟩ | ⟨-, -, rfl⟩ | ⟨-, -, x, rest, -, rfl⟩ | ⟨-, rfl⟩ | ⟨-, rfl⟩⟩ := emitStep_cases h <;>
    exact ⟨_, _, _, rfl⟩

/-- An emit step that is not held hands one byte to a ready sink (R15). -/
theorem emitStep_out {s t : State} {f : Frame} (h : emitStep f s = .next t) :
    t = s ∨ (s.sinkReady = true ∧ ∃ b, t.out = s.out ++ [b]) := by
  obtain rfl | ⟨hs, ⟨-, x, -, rfl⟩ | ⟨-, -, rfl⟩ | ⟨-, -, x, rest, -, rfl⟩ | ⟨-, rfl⟩ | ⟨-, rfl⟩⟩ := emitStep_cases h
  · exact .inl rfl
  all_goals exact .inr ⟨hs, _, rfl⟩

/-- With a ready sink and the payload byte it may need, an emit step emits (R15, R131). -/
theorem emitStep_emits {s t : State} {f : Frame} (hs : s.sinkReady = true)
    (hp : ¬ (f.phase = .payl ∧ f.src = .fromPin ∧ s.pin = [])) (h : emitStep f s = .next t) :
    ∃ b, t.out = s.out ++ [b] := by
  cases hph : f.phase with
  | head =>
    cases hx : (headerBytes f.opc f.len)[f.idx.toNat]? with
    | none => simp [emitStep, hs, hph, emitHead, Frame.headByte, hx] at h
    | some x =>
      rw [emitHead_eq hs hph hx] at h
      cases h
      exact ⟨x, rfl⟩
  | payl =>
    cases hsrc : f.src with
    | fromArg =>
      rw [emitPayl_fromArg hs hph hsrc] at h
      cases h
      exact ⟨_, rfl⟩
    | fromPin =>
      obtain ⟨x, rest, hx⟩ := List.exists_cons_of_ne_nil (fun hnil => hp ⟨hph, hsrc, hnil⟩)
      rw [emitPayl_fromPin hs hph hsrc hx] at h
      cases h
      exact ⟨x, rfl⟩
  | csum =>
    rw [emitCsum_eq hs hph] at h
    cases h
    exact ⟨_, rfl⟩
  | tail =>
    rw [emitTail_eq hs hph] at h
    cases h
    exact ⟨_, rfl⟩

/-- The change `g` of the state touches nothing that the emit step of the frame `f` reads or writes: neither the table nor
the sink, neither `FR` nor `OUT`, and the offered bytes only where the step takes none. -/
structure EmitBlind (f : Frame) (g : State → State) : Prop where
  cfg : ∀ s, (g s).cfg = s.cfg
  sinkReady : ∀ s, (g s).sinkReady = s.sinkReady
  emit : ∀ s b, (g s).emit b = g (s.emit b)
  setFr : ∀ s fr, (g s).setFr fr = g (s.setFr fr)
  payloadByte : f.phase = .payl → ∀ s, f.payloadByte (g s) = (f.payloadByte s).map (Prod.map id g)

/-- An emit step commutes with a change of what it does not touch. -/
theorem EmitBlind.emitStep_commutes {f : Frame} {g : State → State} (hg : EmitBlind f g) {s t : State}
    (h : emitStep f s = .next t) : emitStep f (g s) = .next (g t) := by
  unfold emitStep at h ⊢
  rw [hg.sinkReady]
  by_cases hs : s.sinkReady = true
  · rw [if_pos hs] at h ⊢
    cases hp : f.phase with
    | head =>
      simp only [hp, emitHead] at h ⊢
      cases hx : f.headByte with
      | none => simp [hx] at h
      | some x =>
        simp only [hx, Host.Outcome.next.injEq] at h ⊢
        rw [hg.emit, hg.setFr, h]
    | payl =>
      simp only [hp, emitPayl, hg.payloadByte hp, hg.cfg] at h ⊢
      cases hx : f.payloadByte s with
      | none =>
        simp only [hx, Option.map_none, Host.Outcome.next.injEq] at h ⊢
        rw [h]
      | some x =>
        simp only [hx, Option.map_some, Prod.map, id, Host.Outcome.next.injEq] at h ⊢
        rw [hg.emit, hg.setFr, h]
    | csum =>
      simp only [hp, emitCsum, Host.Outcome.next.injEq] at h ⊢
      rw [hg.emit, hg.setFr, h]
    | tail =>
      simp only [hp, emitTail, Host.Outcome.next.injEq] at h ⊢
      rw [hg.emit, hg.setFr, h]
  · rw [if_neg hs] at h ⊢
    cases h
    rfl

/-- No emit step reads or writes `CRC` (R11, R19). -/
theorem emitBlind_crc (f : Frame) (v : Byte) : EmitBlind f (fun s => { s with crc := v }) where
  cfg _ := rfl
  sinkReady _ := rfl
  emit _ _ := rfl
  setFr _ _ := rfl
  payloadByte _ s := by
    unfold Frame.payloadByte State.takePin
    cases f.src with
    | fromArg => rfl
    | fromPin => cases s.pin <;> rfl

/-- An emit step that takes no byte from `PIN` does not look at the offered bytes (R14). -/
theorem emitBlind_pin {f : Frame} (hf : ¬ (f.phase = .payl ∧ f.src = .fromPin)) (p : List Byte) :
    EmitBlind f (fun s => { s with pin := p }) where
  cfg _ := rfl
  sinkReady _ := rfl
  emit _ _ := rfl
  setFr _ _ := rfl
  payloadByte hp s := by
    unfold Frame.payloadByte
    cases hs : f.src with
    | fromArg => rfl
    | fromPin => exact absurd ⟨hp, hs⟩ hf

theorem emitStep_pin {s t : State} {f : Frame} (hf : ¬ (f.phase = .payl ∧ f.src = .fromPin))
    (h : emitStep f s = .next t) : t.pin = s.pin := by
  have hblind : emitStep f s = .next { t with pin := s.pin } := (emitBlind_pin hf s.pin).emitStep_commutes h
  rw [h] at hblind
  rw [Host.Outcome.next.inj hblind]

/-! ### The block's turn -/

theorem Framer.idle_or_busy (fr : Framer) : fr = .idle ∨ ∃ f, fr = .busy f := by
  cases fr with
  | idle => exact .inl rfl
  | busy f => exact .inr ⟨f, rfl⟩

/-- In `Busy` the block's turn is the emit step, held while `RESET` is asserted. -/
theorem blockStep_busy_cases {s t : State} {f : Frame} (hf : s.fr = .busy f) (h : blockStep s = .next t) :
    (s.resetPin = true ∧ t = s) ∨ (s.resetPin = false ∧ emitStep f s = .next t) := by
  cases hr : s.resetPin with
  | true =>
    rw [blockStep_in_reset hr] at h
    exact .inl ⟨rfl, (Host.Outcome.next.inj h).symm⟩
  | false => exact .inr ⟨rfl, blockStep_busy hr hf ▸ h⟩

/-- In `Busy` the block's turn is held while `RESET` is asserted or the sink is not ready (R131, R140). -/
theorem blockStep_busy_held {s : State} {f : Frame} (hf : s.fr = .busy f)
    (h : s.resetPin = true ∨ s.sinkReady = false) : blockStep s = .next s := by
  cases hr : s.resetPin with
  | true => exact blockStep_in_reset hr
  | false =>
    rw [blockStep_busy hr hf]
    exact emitStep_unready f (h.resolve_left (by simp [hr]))

/-- A turn of a `FRAME_MULTI` payload step: held for a reason that is not in the offered bytes, or the first is taken. -/
theorem blockStep_paylPin {s : State} {f : Frame} (hf : s.fr = .busy f) (hp : f.phase = .payl) (ha : f.src = .fromPin) :
    (∀ p, blockStep { s with pin := p } = .next { s with pin := p }) ∨
    (∀ b q, blockStep { s with pin := b :: q } =
      .next { s with pin := q, out := s.out ++ [b], fr := .busy (f.afterPayl s.cfg b) }) := by
  by_cases hheld : s.resetPin = true ∨ s.sinkReady = false
  · exact .inl fun p => blockStep_busy_held (s := { s with pin := p }) hf hheld
  · obtain ⟨hr, hs⟩ := not_or.1 hheld
    right
    intro b q
    rw [blockStep_busy (s := { s with pin := b :: q }) (Bool.eq_false_iff.2 hr) hf]
    exact emitPayl_fromPin (s := { s with pin := b :: q }) (Bool.eq_true_of_not_eq_false hs) hp ha rfl

theorem blockStep_paylPin_starved {s : State} {f : Frame} (hf : s.fr = .busy f) (hp : f.phase = .payl)
    (ha : f.src = .fromPin) (hpin : s.pin = []) : blockStep s = .next s := by
  cases hr : s.resetPin with
  | true => exact blockStep_in_reset hr
  | false => rw [blockStep_busy hr hf, emitPayl_starved hp ha hpin]

/-- Outside a `FRAME_MULTI` payload step the offered bytes stay with the host, and the turn is the same for any (R14). -/
theorem blockStep_withPin {s t : State} (hs : ¬ ∃ f, s.fr = .busy f ∧ f.phase = .payl ∧ f.src = .fromPin)
    (h : blockStep s = .next t) (p : List Byte) :
    t.pin = s.pin ∧ blockStep { s with pin := p } = .next { t with pin := p } := by
  obtain hr | hr := Bool.eq_false_or_eq_true s.resetPin
  · rw [blockStep_in_reset hr] at h
    cases h
    exact ⟨rfl, blockStep_in_reset hr⟩
  obtain hf | ⟨f, hf⟩ := s.fr.idle_or_busy
  · by_cases hc : s.cmd = []
    · rw [blockStep_idle_nil hf hc] at h
      cases h
      exact ⟨rfl, blockStep_idle_nil hf hc⟩
    · obtain ⟨w, rest, hc⟩ := List.exists_cons_of_ne_nil hc
      have ha : { s with cmd := rest }.canAccept = true := (State.canAccept_iff _).2 ⟨hr, hf⟩
      rw [blockStep_idle_cons hr hf hc] at h
      rw [blockStep_idle_cons (s := { s with pin := p }) hr hf hc]
      refine ⟨?_, acceptWord_withPin ha h p⟩
      obtain ⟨c, fr, q, hw⟩ := acceptWord_frame ha w
      cases h.symm.trans hw
      rfl
  · have hn : ¬ (f.phase = .payl ∧ f.src = .fromPin) := fun hpay => hs ⟨f, hf, hpay⟩
    rw [blockStep_busy hr hf] at h
    rw [blockStep_busy (s := { s with pin := p }) hr hf]
    exact ⟨emitStep_pin hn h, (emitBlind_pin hn p).emitStep_commutes h⟩

/-! ### Reset -/

/-- A reset pulse: the reset values, and a new history (R20, R140; log 6). -/
theorem State.driveReset_pulse {s : State} (h : s.resetPin = false) :
    (s.driveReset true).driveReset false =
      { s with crc := crcSeed, fr := .idle, rsp := [], out := [], past := s.past ++ [⟨s.rsp, s.out⟩] } := by
  simp [State.driveReset, h]

/-- Driving `RESET` leaves `CRC` or gives it its reset value (R20). -/
theorem State.driveReset_crc (s : State) (l : Bool) : (s.driveReset l).crc = s.crc ∨ (s.driveReset l).crc = crcSeed := by
  unfold State.driveReset
  split <;> simp

/-- The environment changes `CRC` only by `RESET`, to its reset value (R11). -/
theorem environment_crc_ne {s : State} {e : EnvEvent} (h : (s.environment e).crc ≠ s.crc) :
    ∃ l, e = .reset l ∧ (s.environment e).crc = crcSeed := by
  cases e with
  | reset l => exact ⟨l, rfl, (s.driveReset_crc l).resolve_left h⟩
  | block | present | withdrawCmd | offer | withdrawPin | sink => exact absurd rfl h

/-! ### Who writes and who reads `CRC` -/

/-- A step that changes `CRC` is the environment's driving `RESET`, or the accept step of `CRC_CLR` or `CRC_UPD` (R11). -/
theorem step_crc_ne {s t : State} (h : step s = .next t) (hne : t.crc ≠ s.crc) :
    (∃ l rest, s.env = .reset l :: rest ∧ t.crc = crcSeed) ∨
    (∃ w rest, s.cmd = w :: rest ∧ s.canAccept = true ∧
      ((decode w = .op .crcClr ∧ t.crc = crcSeed) ∨
        ∃ b, decode w = .op (.crcUpd b) ∧ t.crc = crcStep s.cfg s.crc b)) := by
  obtain ⟨es, -, hb⟩ | ⟨e, es, henv, -, rfl⟩ := step_cases h
  · right
    obtain rfl | ⟨ha, w, rest, hc, hw⟩ | ⟨-, f, -, he⟩ := blockStep_cases hb
    · exact absurd rfl hne
    · exact ⟨w, rest, hc, ha, acceptWord_crc_ne (s := { s with env := es, cmd := rest }) ha hw hne⟩
    · obtain ⟨fr, p, o, rfl⟩ := emitStep_frame he
      exact absurd rfl hne
  · left
    obtain ⟨l, rfl, hl⟩ := environment_crc_ne (s := { s with env := es }) hne
    exact ⟨l, es, henv, hl⟩

/-- An operation other than `CRC_CLR`, `CRC_RD` and `CRC_UPD` neither writes nor reads `CRC` (R11). -/
theorem exec_withCrc {s t : State} {i : Instr} (hclr : i ≠ .crcClr) (hrd : i ≠ .crcRd) (hupd : ∀ b, i ≠ .crcUpd b)
    (h : exec i s = .next t) (v : Byte) : t.crc = s.crc ∧ exec i { s with crc := v } = .next { t with crc := v } := by
  obtain ha | ha := Bool.eq_false_or_eq_true s.canAccept
  · rw [exec_of_canAccept ha] at h
    cases h
    refine ⟨effectOf_crc hclr hupd s, ?_⟩
    rw [exec_of_canAccept (s := { s with crc := v }) ha, effectOf_withCrc hclr hrd hupd]
  · rw [exec_of_not ha] at h
    cases h
    exact ⟨rfl, exec_of_not (s := { s with crc := v }) ha i⟩

/-- In `Busy` the block's turn neither writes nor reads `CRC` (R11). -/
theorem blockStep_busy_withCrc {s t : State} {f : Frame} (hf : s.fr = .busy f) (h : blockStep s = .next t) (v : Byte) :
    t.crc = s.crc ∧ blockStep { s with crc := v } = .next { t with crc := v } := by
  obtain ⟨hr, rfl⟩ | ⟨hr, he⟩ := blockStep_busy_cases hf h
  · exact ⟨rfl, blockStep_in_reset hr⟩
  · rw [blockStep_busy (s := { s with crc := v }) hr hf]
    refine ⟨?_, (emitBlind_crc f v).emitStep_commutes he⟩
    obtain ⟨fr, p, o, rfl⟩ := emitStep_frame he
    rfl

end Sys2Proof.Machine
end

section
/-! The statements of 10_state.md: the ports (R14 to R16), `CRC` (R11) and the reset values (R20). -/

namespace Sys2Proof.Machine

/-- Settles O9: the frame of the emit step keeps `CMD` and the responses, and that of the accept step adds one response. -/
theorem commandPortAcceptsOnlyInIdle : Obligations.CommandPortAcceptsOnlyInIdle := by
  intro s t h
  refine ⟨fun f hf => ?_, fun ha hc => ?_, fun w rest ha hc => ?_⟩
  · obtain ⟨-, rfl⟩ | ⟨-, he⟩ := blockStep_busy_cases hf h
    · exact ⟨rfl, rfl⟩
    · obtain ⟨fr, p, o, rfl⟩ := emitStep_frame he
      exact ⟨rfl, rfl⟩
  · rw [blockStep_idle_nil ((State.canAccept_iff s).1 ha).2 hc] at h
    exact (Host.Outcome.next.inj h).symm
  · obtain ⟨hr, hf⟩ := (State.canAccept_iff s).1 ha
    obtain ⟨c, fr, q, hw⟩ := acceptWord_frame (s := { s with cmd := rest }) ha w
    rw [blockStep_idle_cons hr hf hc, hw] at h
    cases h
    exact ⟨rfl, q, rfl⟩

/-- Settles O11: in a `FRAME_MULTI` payload step by its one equation, elsewhere because the turn is blind to `PIN`. -/
theorem pinIsTakenOnlyByPayl : Obligations.PinIsTakenOnlyByPayl := by
  intro s p
  refine ⟨?_, fun hn t h => blockStep_withPin hn h p⟩
  rintro ⟨f, hf, hp, ha⟩
  refine ⟨blockStep_paylPin_starved (s := { s with pin := [] }) hf hp ha rfl, fun b q t h => ?_⟩
  obtain hheld | htaken := blockStep_paylPin hf hp ha
  · rw [hheld] at h
    cases h
    exact ⟨.inl rfl, _, hheld _, rfl, rfl, rfl, rfl⟩
  · rw [htaken] at h
    cases h
    exact ⟨.inr ⟨rfl, rfl⟩, _, htaken b p, rfl, rfl, rfl, rfl⟩

/-- Settles O12: from what an emit step does to `OUT`, the frame of the accept step, and a held step being a fixed point. -/
theorem outGrowsOnlyByEmitSteps : Obligations.OutGrowsOnlyByEmitSteps := by
  intro s t h
  refine ⟨fun hb => ?_, fun f hf hr hs hp => ?_, fun hb => ?_, fun henv hb hs k => ?_⟩
  · obtain ⟨f, hf⟩ := (State.busy_iff s).1 hb
    obtain ⟨-, rfl⟩ | ⟨-, he⟩ := blockStep_busy_cases hf h
    · exact .inl rfl
    · exact emitStep_out he
  · rw [blockStep_busy hr hf] at h
    exact emitStep_emits hs hp h
  · obtain rfl | ⟨ha, w, rest, -, hw⟩ | ⟨-, f, hf, -⟩ := blockStep_cases h
    · rfl
    · obtain ⟨c, fr, q, hw'⟩ := acceptWord_frame (s := { s with cmd := rest }) ha w
      cases hw.symm.trans hw'
      rfl
    · exact absurd ((State.busy_iff s).2 ⟨f, hf⟩) (by simp [hb])
  · obtain ⟨f, hf⟩ := (State.busy_iff s).1 hb
    exact runSteps_of_fixed ((step_nil henv).trans (blockStep_busy_held hf (.inr hs))) k

/-- Settles O21: who writes `CRC` by the case analysis of a step, who reads it by the blindness of all other steps. -/
theorem crcAccess : Obligations.CrcAccess := by
  refine ⟨fun s t h hne => step_crc_ne h hne, fun s ha => ⟨?_, fun b => ?_, ?_, ?_⟩,
    fun s t v i hclr hrd hupd h => exec_withCrc hclr hrd hupd h v, fun s t v hb h => ?_⟩
  · exact ⟨_, exec_of_canAccept ha _, rfl⟩
  · exact ⟨_, exec_of_canAccept ha _, rfl⟩
  · exact ⟨_, _, exec_of_canAccept ha _, rfl, lowByte_responseWord .ok s.crc⟩
  · rw [State.driveReset_pulse ((State.canAccept_iff s).1 ha).1]
    rfl
  · obtain ⟨f, hf⟩ := (State.busy_iff s).1 hb
    exact blockStep_busy_withCrc hf h v

/-- Settles O53: `State.reset` has the values by definition, and the state after a reset pulse by its equation. -/
theorem resetValues : Obligations.ResetValues :=
  ⟨⟨rfl, rfl, rfl, rfl⟩, fun _ hr => ⟨_, State.driveReset_pulse hr, rfl, rfl, rfl, rfl, fun _ _ => rfl⟩⟩

end Sys2Proof.Machine
end

section
/-! The statements of 20_memory.md: the tables are fixed by the configuration, which nothing writes (R40, R141). -/

namespace Sys2Proof.Machine

/-! ### The configuration -/

/-- Driving `RESET` writes no table (R141). -/
@[simp] theorem State.driveReset_cfg (s : State) (l : Bool) : (s.driveReset l).cfg = s.cfg := by
  unfold State.driveReset
  split <;> rfl

/-- No move of the environment writes a table (R40). -/
@[simp] theorem State.environment_cfg (s : State) (e : EnvEvent) : (s.environment e).cfg = s.cfg := by
  cases e with
  | reset l => exact s.driveReset_cfg l
  | block | present | withdrawCmd | offer | withdrawPin | sink => rfl

/-- The block's turn writes no table: its accept step by the frame of that step, its emit step likewise (R40). -/
theorem blockStep_cfg {s t : State} (h : blockStep s = .next t) : t.cfg = s.cfg := by
  obtain rfl | ⟨ha, w, rest, -, hw⟩ | ⟨-, f, -, he⟩ := blockStep_cases h
  · rfl
  · obtain ⟨c, fr, q, hframe⟩ := acceptWord_frame (s := { s with cmd := rest }) ha w
    cases hw.symm.trans hframe
    rfl
  · obtain ⟨fr, p, o, rfl⟩ := emitStep_frame he
    rfl

/-- A step keeps the configuration, whoever moves (R18, R40, R141). -/
theorem step_cfg {s t : State} (h : step s = .next t) : t.cfg = s.cfg := by
  obtain ⟨es, -, hb⟩ | ⟨e, es, -, -, rfl⟩ := step_cases h
  · exact blockStep_cfg (s := { s with env := es }) hb
  · exact State.environment_cfg { s with env := es } e

/-- Settles O56: a table is read from the configuration, which every step keeps. -/
theorem tablesNeverChange : Obligations.TablesNeverChange := by
  intro s t h rom a
  rw [step_cfg h]

end Sys2Proof.Machine
end

section
/-! SUPPORT. The rows of R53, the decoder and the legal words speak of the same words (R51 to R55): each is compared with
`encode`. Then the accept step of a word by what it decodes to, and the table that `MIRROR` answers from (R86). -/

namespace Sys2Proof.Machine

/-! ### Words by their fields -/

theorem eq_packCommand {w : CommandWord} {sel : BitVec 4} {opc : Byte} {arg : Half} (hrsv : cmdRsv w = 0)
    (hsel : cmdSel w = sel) (hopc : cmdOpc w = opc) (harg : cmdArg w = arg) : w = packCommand sel opc arg := by
  subst hsel hopc harg
  exact (packCommand_fields w hrsv).symm

/-- A masked word compared with a pattern, field by field. -/
theorem and_eq_packCommand_iff {w m : CommandWord} {sel : BitVec 4} {opc : Byte} {arg : Half} :
    w &&& m = packCommand sel opc arg ↔
      cmdRsv w &&& cmdRsv m = 0 ∧ cmdSel w &&& cmdSel m = sel ∧ cmdOpc w &&& cmdOpc m = opc ∧
        cmdArg w &&& cmdArg m = arg := by
  have hrsv : cmdRsv (w &&& m) = cmdRsv w &&& cmdRsv m := BitVec.extractLsb'_and
  have hsel : cmdSel (w &&& m) = cmdSel w &&& cmdSel m := BitVec.extractLsb'_and
  have hopc : cmdOpc (w &&& m) = cmdOpc w &&& cmdOpc m := BitVec.extractLsb'_and
  have harg : cmdArg (w &&& m) = cmdArg w &&& cmdArg m := BitVec.extractLsb'_and
  rw [← hrsv, ← hsel, ← hopc, ← harg]
  constructor
  · intro h
    rw [h]
    exact ⟨cmdRsv_packCommand .., cmdSel_packCommand .., cmdOpc_packCommand .., cmdArg_packCommand ..⟩
  · rintro ⟨h0, h1, h2, h3⟩
    exact eq_packCommand h0 h1 h2 h3

theorem and_ff00_eq_zero_iff (v : Half) : v &&& 0xFF00 = 0 ↔ highByte v = 0 := by
  have hhigh : highByte (v &&& 0xFF00) = highByte v &&& BitVec.allOnes 8 := BitVec.extractLsb'_and
  have hlow : lowByte (v &&& 0xFF00) = lowByte v &&& 0#8 := BitVec.extractLsb'_and
  rw [BitVec.and_allOnes] at hhigh
  constructor
  · intro h
    rw [← hhigh, h]
    rfl
  · intro h
    rw [← byteArg_lowByte (v &&& 0xFF00) (hhigh.trans h), hlow, BitVec.and_zero]
    rfl

/-! ### The masks of R53 -/

/-- The mask of `CRC_CLR` and `CRC_RD`. -/
theorem mask_noOperand_iff (w : CommandWord) (sel : BitVec 4) : w &&& 0xFFFFFFFF = packCommand sel 0 0 ↔
    cmdRsv w = 0 ∧ cmdSel w = sel ∧ cmdOpc w = 0 ∧ cmdArg w = 0 := by
  rw [and_eq_packCommand_iff]
  change cmdRsv w &&& BitVec.allOnes 4 = 0 ∧ cmdSel w &&& BitVec.allOnes 4 = sel ∧ cmdOpc w &&& BitVec.allOnes 8 = 0 ∧
    cmdArg w &&& BitVec.allOnes 16 = 0 ↔ _
  simp only [BitVec.and_allOnes]

/-- The mask of `CRC_UPD` and `MIRROR`. -/
theorem mask_byteOperand_iff (w : CommandWord) (sel : BitVec 4) : w &&& 0xFFFFFF00 = packCommand sel 0 0 ↔
    cmdRsv w = 0 ∧ cmdSel w = sel ∧ cmdOpc w = 0 ∧ highByte (cmdArg w) = 0 := by
  rw [and_eq_packCommand_iff]
  change cmdRsv w &&& BitVec.allOnes 4 = 0 ∧ cmdSel w &&& BitVec.allOnes 4 = sel ∧ cmdOpc w &&& BitVec.allOnes 8 = 0 ∧
    cmdArg w &&& 0xFF00 = 0 ↔ _
  simp only [BitVec.and_allOnes, and_ff00_eq_zero_iff]

/-- The mask of `FRAME_D8`. -/
theorem mask_frameD8_iff (w : CommandWord) (sel : BitVec 4) : w &&& 0xFF00FF00 = packCommand sel 0 0 ↔
    cmdRsv w = 0 ∧ cmdSel w = sel ∧ highByte (cmdArg w) = 0 := by
  rw [and_eq_packCommand_iff]
  change cmdRsv w &&& BitVec.allOnes 4 = 0 ∧ cmdSel w &&& BitVec.allOnes 4 = sel ∧ cmdOpc w &&& 0#8 = 0#8 ∧
    cmdArg w &&& 0xFF00 = 0 ↔ _
  simp only [BitVec.and_allOnes, BitVec.and_zero, true_and, and_ff00_eq_zero_iff]

/-- The mask of `FRAME_D16` and `FRAME_MULTI`. -/
theorem mask_selOnly_iff (w : CommandWord) (sel : BitVec 4) : w &&& 0xFF000000 = packCommand sel 0 0 ↔
    cmdRsv w = 0 ∧ cmdSel w = sel := by
  rw [and_eq_packCommand_iff]
  change cmdRsv w &&& BitVec.allOnes 4 = 0 ∧ cmdSel w &&& BitVec.allOnes 4 = sel ∧ cmdOpc w &&& 0#8 = 0#8 ∧
    cmdArg w &&& 0#16 = 0#16 ↔ _
  simp only [BitVec.and_allOnes, BitVec.and_zero, and_true]

/-! ### The rows -/

/-- Every mask keeps `SEL`, so a row's word has the row's `SEL` (R53). -/
theorem cmdSel_of_isWord {r : OpcodeRow} {w : CommandWord} (hr : r ∈ opcodeRows) (h : r.isWord w = true) :
    cmdSel w = cmdSel r.pattern := by
  have hmask : ∀ r ∈ opcodeRows, cmdSel r.mask = BitVec.allOnes 4 := by decide
  calc cmdSel w = cmdSel w &&& cmdSel r.mask := by rw [hmask r hr, BitVec.and_allOnes]
    _ = cmdSel (w &&& r.mask) := BitVec.extractLsb'_and.symm
    _ = cmdSel r.pattern := congrArg cmdSel (beq_iff_eq.1 h)

/-- A word with the fields of a one-byte operation packs that byte. -/
theorem eq_packCommand_byteArg {w : CommandWord} {sel : BitVec 4} {opc : Byte} (hrsv : cmdRsv w = 0)
    (hsel : cmdSel w = sel) (hopc : cmdOpc w = opc) (hhigh : highByte (cmdArg w) = 0) :
    w = packCommand sel opc (byteArg (lowByte (cmdArg w))) :=
  eq_packCommand hrsv hsel hopc (byteArg_lowByte _ hhigh).symm

/-- The word of a row encodes the row's operation. -/
theorem eq_encode_of_isWord {r : OpcodeRow} {w : CommandWord} (hr : r ∈ opcodeRows) (h : r.isWord w = true) :
    w = encode (r.operation w) := by
  have hmask : w &&& r.mask = r.pattern := beq_iff_eq.1 h
  simp only [opcodeRows, List.mem_cons, List.not_mem_nil, or_false] at hr
  obtain rfl | rfl | rfl | rfl | rfl | rfl | rfl := hr
  · obtain ⟨hrsv, hsel, hopc, harg⟩ := (mask_noOperand_iff w 0x1).1 hmask
    exact eq_packCommand hrsv hsel hopc harg
  · obtain ⟨hrsv, hsel, hopc, hhigh⟩ := (mask_byteOperand_iff w 0x2).1 hmask
    exact eq_packCommand_byteArg hrsv hsel hopc hhigh
  · obtain ⟨hrsv, hsel, hopc, harg⟩ := (mask_noOperand_iff w 0x3).1 hmask
    exact eq_packCommand hrsv hsel hopc harg
  · obtain ⟨hrsv, hsel, hopc, hhigh⟩ := (mask_byteOperand_iff w 0x4).1 hmask
    exact eq_packCommand_byteArg hrsv hsel hopc hhigh
  · obtain ⟨hrsv, hsel, hhigh⟩ := (mask_frameD8_iff w 0x8).1 hmask
    exact eq_packCommand_byteArg hrsv hsel rfl hhigh
  · obtain ⟨hrsv, hsel⟩ := (mask_selOnly_iff w 0x9).1 hmask
    exact eq_packCommand hrsv hsel rfl rfl
  · obtain ⟨hrsv, hsel⟩ := (mask_selOnly_iff w 0xA).1 hmask
    exact eq_packCommand hrsv hsel rfl rfl

theorem highByte_cmdArg_packCommand (sel : BitVec 4) (opc b : Byte) :
    highByte (cmdArg (packCommand sel opc (byteArg b))) = 0 := by
  rw [cmdArg_packCommand, highByte_byteArg]

/-- The word of an operation is a word of the operation's row. -/
theorem exists_row_isWord_encode (i : Instr) : ∃ r ∈ opcodeRows, r.isWord (encode i) = true := by
  cases i with
  | crcClr => exact ⟨opcodeRows[0], List.getElem_mem _, rfl⟩
  | crcUpd b =>
    exact ⟨opcodeRows[1], List.getElem_mem _, beq_iff_eq.2 ((mask_byteOperand_iff _ 0x2).2
      ⟨cmdRsv_packCommand .., cmdSel_packCommand .., cmdOpc_packCommand .., highByte_cmdArg_packCommand ..⟩)⟩
  | crcRd => exact ⟨opcodeRows[2], List.getElem_mem _, rfl⟩
  | mirror b =>
    exact ⟨opcodeRows[3], List.getElem_mem _, beq_iff_eq.2 ((mask_byteOperand_iff _ 0x4).2
      ⟨cmdRsv_packCommand .., cmdSel_packCommand .., cmdOpc_packCommand .., highByte_cmdArg_packCommand ..⟩)⟩
  | frameD8 op d =>
    exact ⟨opcodeRows[4], List.getElem_mem _, beq_iff_eq.2 ((mask_frameD8_iff _ 0x8).2
      ⟨cmdRsv_packCommand .., cmdSel_packCommand .., highByte_cmdArg_packCommand ..⟩)⟩
  | frameD16 op v =>
    exact ⟨opcodeRows[5], List.getElem_mem _, beq_iff_eq.2 ((mask_selOnly_iff _ 0x9).2
      ⟨cmdRsv_packCommand .., cmdSel_packCommand ..⟩)⟩
  | frameMulti op n =>
    exact ⟨opcodeRows[6], List.getElem_mem _, beq_iff_eq.2 ((mask_selOnly_iff _ 0xA).2
      ⟨cmdRsv_packCommand .., cmdSel_packCommand ..⟩)⟩

/-! ### The decoder -/

theorem decode_encode (i : Instr) : decode (encode i) = .op i := by
  cases i with
  | crcClr | crcRd => rfl
  | crcUpd b | mirror b =>
    simp [decode, encode, cmdRsv_packCommand, cmdSel_packCommand, decodeByteOperand, cmdOpc_packCommand,
      cmdArg_packCommand, highByte_byteArg, lowByte_byteArg]
  | frameD8 op d =>
    simp [decode, encode, cmdRsv_packCommand, cmdSel_packCommand, decodeFrameD8, cmdOpc_packCommand,
      cmdArg_packCommand, highByte_byteArg, lowByte_byteArg]
  | frameD16 op v | frameMulti op n =>
    simp [decode, encode, cmdRsv_packCommand, cmdSel_packCommand, cmdOpc_packCommand, cmdArg_packCommand]

theorem decodeNoOperand_eq_op_iff {w : CommandWord} {i j : Instr} :
    decodeNoOperand w i = .op j ↔ cmdOpc w = 0 ∧ cmdArg w = 0 ∧ i = j := by
  unfold decodeNoOperand
  split_ifs <;> simp_all

theorem decodeByteOperand_eq_op_iff {w : CommandWord} {mk : Byte → Instr} {j : Instr} :
    decodeByteOperand w mk = .op j ↔ cmdOpc w = 0 ∧ highByte (cmdArg w) = 0 ∧ mk (lowByte (cmdArg w)) = j := by
  unfold decodeByteOperand
  split_ifs <;> simp_all

theorem decodeFrameD8_eq_op_iff {w : CommandWord} {j : Instr} :
    decodeFrameD8 w = .op j ↔ highByte (cmdArg w) = 0 ∧ .frameD8 (cmdOpc w) (lowByte (cmdArg w)) = j := by
  unfold decodeFrameD8
  split_ifs <;> simp_all

theorem eq_encode_of_decode {w : CommandWord} {i : Instr} (h : decode w = .op i) : w = encode i := by
  unfold decode at h
  split_ifs at h with hrsv h1 h2 h3 h4 h8 h9 hA
  · obtain ⟨hopc, harg, rfl⟩ := decodeNoOperand_eq_op_iff.1 h
    exact eq_packCommand (not_not.1 hrsv) h1 hopc harg
  · obtain ⟨hopc, hhigh, rfl⟩ := decodeByteOperand_eq_op_iff.1 h
    exact eq_packCommand_byteArg (not_not.1 hrsv) h2 hopc hhigh
  · obtain ⟨hopc, harg, rfl⟩ := decodeNoOperand_eq_op_iff.1 h
    exact eq_packCommand (not_not.1 hrsv) h3 hopc harg
  · obtain ⟨hopc, hhigh, rfl⟩ := decodeByteOperand_eq_op_iff.1 h
    exact eq_packCommand_byteArg (not_not.1 hrsv) h4 hopc hhigh
  · obtain ⟨hhigh, rfl⟩ := decodeFrameD8_eq_op_iff.1 h
    exact eq_packCommand_byteArg (not_not.1 hrsv) h8 rfl hhigh
  · cases h
    exact eq_packCommand (not_not.1 hrsv) h9 rfl rfl
  · cases h
    exact eq_packCommand (not_not.1 hrsv) hA rfl rfl

/-! ### Legal words -/

theorem legal_encode (i : Instr) : CommandWord.legal (encode i) = true := by
  cases i with
  | crcClr | crcRd => rfl
  | crcUpd b | mirror b | frameD8 op d | frameD16 op v | frameMulti op n =>
    simp [CommandWord.legal, selAssigned, rsvZero, opcZeroWhereRequired, argZeroWhereRequired, argHighZeroWhereRequired,
      encode, cmdRsv_packCommand, cmdSel_packCommand, cmdOpc_packCommand, cmdArg_packCommand, highByte_byteArg]

/-- The five conditions of R55 together. -/
theorem legal_iff (w : CommandWord) : CommandWord.legal w = true ↔
    cmdSel w ∈ [0x1#4, 0x2#4, 0x3#4, 0x4#4, 0x8#4, 0x9#4, 0xA#4] ∧ cmdRsv w = 0 ∧
      (cmdSel w ∈ [0x1#4, 0x2#4, 0x3#4, 0x4#4] → cmdOpc w = 0) ∧ (cmdSel w ∈ [0x1#4, 0x3#4] → cmdArg w = 0) ∧
      (cmdSel w ∈ [0x2#4, 0x4#4, 0x8#4] → highByte (cmdArg w) = 0) := by
  simp only [CommandWord.legal, selAssigned, rsvZero, opcZeroWhereRequired, argZeroWhereRequired,
    argHighZeroWhereRequired, Bool.and_eq_true, Bool.or_eq_true, Bool.not_eq_true', beq_iff_eq, List.contains_eq_mem,
    decide_eq_true_eq, decide_eq_false_iff_not, ← imp_iff_not_or, and_assoc]

theorem exists_encode_of_legal {w : CommandWord} (h : CommandWord.legal w = true) : ∃ i, w = encode i := by
  obtain ⟨hsel, hrsv, hopc, harg, hhigh⟩ := (legal_iff w).1 h
  simp only [List.mem_cons, List.not_mem_nil, or_false] at hsel
  obtain hsel | hsel | hsel | hsel | hsel | hsel | hsel := hsel
  · exact ⟨.crcClr, eq_packCommand hrsv hsel (hopc (by simp [hsel])) (harg (by simp [hsel]))⟩
  · exact ⟨.crcUpd _, eq_packCommand_byteArg hrsv hsel (hopc (by simp [hsel])) (hhigh (by simp [hsel]))⟩
  · exact ⟨.crcRd, eq_packCommand hrsv hsel (hopc (by simp [hsel])) (harg (by simp [hsel]))⟩
  · exact ⟨.mirror _, eq_packCommand_byteArg hrsv hsel (hopc (by simp [hsel])) (hhigh (by simp [hsel]))⟩
  · exact ⟨.frameD8 _ _, eq_packCommand_byteArg hrsv hsel rfl (hhigh (by simp [hsel]))⟩
  · exact ⟨.frameD16 _ _, eq_packCommand hrsv hsel rfl rfl⟩
  · exact ⟨.frameMulti _ _, eq_packCommand hrsv hsel rfl rfl⟩

theorem exists_illegal_of_ne_encode {w : CommandWord} (h : ∀ i, w ≠ encode i) : ∃ why, decode w = .illegal why := by
  cases hw : decode w with
  | op i => exact absurd (eq_encode_of_decode hw) (h i)
  | illegal why => exact ⟨why, rfl⟩

/-! ### The accept step, by what the word decodes to -/

theorem acceptWord_op {s : State} {w : CommandWord} {i : Instr} (h : decode w = .op i) : acceptWord w s = exec i s := by
  rw [acceptWord, h]

theorem acceptWord_illegal {s : State} {w : CommandWord} {why : Illegal} (ha : s.canAccept = true)
    (h : decode w = .illegal why) : acceptWord w s = .next { s with rsp := s.rsp ++ [0x0100] } := by
  rw [acceptWord_of_canAccept ha, h]

/-! ### The mirror table -/

/-- `MIR_ROM` row by row, sixteen bytes each (R86). -/
theorem mirRomRows_row : ∀ k < 16,
    (mirRomRows.drop (16 * k)).take 16 = (List.range 16).map fun j => rev8 (BitVec.ofNat 8 (16 * k + j)) := by decide

theorem mirRomRows_getElem? (b : Byte) : mirRomRows[b.toNat]? = some (rev8 b) := by
  have hj : b.toNat % 16 < 16 := Nat.mod_lt _ (by decide)
  have hrow := congrArg (·[b.toNat % 16]?) (mirRomRows_row (b.toNat / 16) (by omega))
  simpa [hj, Nat.div_add_mod] using hrow

/-- `MIR_ROM` holds `rev8` at every index (R85, R86). -/
theorem memRead_mir (c : Config) (b : Byte) : memRead c .mir b = rev8 b := by
  have hget : some (memRead c .mir b) = mirRomRows[b.toNat]? := by
    simp only [memRead, mirRom, Vector.get_eq_getElem, Vector.getElem_mk, List.getElem_toArray]
    exact (List.getElem?_eq_getElem _).symm
  exact Option.some.inj (hget.trans (mirRomRows_getElem? b))

end Sys2Proof.Machine
end

section
/-! The statements of 30_encoding.md: the decoder is total (R54), an illegal word changes nothing (R55), and each accepted word
is answered by one response (R56, R121). -/

namespace Sys2Proof.Machine

/-- Settles O3: the rows are disjoint by their `SEL`, and rows and decoder agree because both agree with `encode`. -/
theorem decodeIsTotalAndDisjoint : Obligations.DecodeIsTotalAndDisjoint := by
  refine ⟨?_, fun w => ⟨fun r hr h => ?_, fun hnone => exists_illegal_of_ne_encode ?_⟩⟩
  · have hsel : opcodeRows.Pairwise (fun a b => cmdSel a.pattern ≠ cmdSel b.pattern) := by decide
    refine hsel.imp_of_mem fun ha hb hne w hw => Bool.eq_false_iff.2 fun hw' => hne ?_
    rw [← cmdSel_of_isWord ha hw, cmdSel_of_isWord hb hw']
  · conv_lhs => rw [eq_encode_of_isWord hr h]
    exact decode_encode _
  · rintro i rfl
    obtain ⟨r, hr, h⟩ := exists_row_isWord_encode i
    simp [hnone r hr] at h

/-- Settles O5: a word that is not legal encodes nothing, so it decodes as illegal; a legal word encodes an operation. -/
theorem illegalWordChangesNothing : Obligations.IllegalWordChangesNothing := by
  intro w rest s hc hr
  refine ⟨fun hl hf => ?_, fun f hf t h => ?_, fun hl hf => ?_⟩
  · have hne : ∀ i, w ≠ encode i := by
      rintro i rfl
      simp [legal_encode] at hl
    obtain ⟨why, hw⟩ := exists_illegal_of_ne_encode hne
    rw [blockStep_idle_cons hr hf hc]
    exact acceptWord_illegal (s := { s with cmd := rest }) ((State.canAccept_iff _).2 ⟨hr, hf⟩) hw
  · rw [← hc]
    exact (commandPortAcceptsOnlyInIdle s t h).1 f hf
  · obtain ⟨i, rfl⟩ := exists_encode_of_legal hl
    exact ⟨i, rfl, (blockStep_idle_cons hr hf hc).trans (acceptWord_op (decode_encode i))⟩

/-- Settles O6: the accept step is the effect of the decoded operation, whose response word is read field by field. -/
theorem oneResponsePerCommand : Obligations.OneResponsePerCommand := by
  intro w s ha
  have hidle : s.busy = false := by
    rw [State.busy, ((State.canAccept_iff s).1 ha).2]
    rfl
  cases hw : decode w with
  | illegal why => exact ⟨_, _, acceptWord_illegal ha hw, rfl, rfl, rfl, rfl, hidle⟩
  | op i =>
    have hacc : acceptWord w s = .next (effectOf i s) := (acceptWord_op hw).trans (exec_of_canAccept ha i)
    cases i with
    | crcClr | crcUpd =>
      exact ⟨_, _, hacc, rfl, rfl, highByte_responseWord .ok 0, lowByte_responseWord .ok 0, hidle⟩
    | crcRd => exact ⟨_, _, hacc, rfl, rfl, highByte_responseWord .ok _, lowByte_responseWord .ok _, hidle⟩
    | mirror b =>
      exact ⟨_, _, hacc, rfl, rfl, highByte_responseWord .ok _,
        (lowByte_responseWord .ok _).trans (memRead_mir s.cfg b), hidle⟩
    | frameD8 | frameD16 =>
      exact ⟨_, _, hacc, rfl, rfl, highByte_responseWord .ok 0, lowByte_responseWord .ok 0, rfl⟩
    | frameMulti op n =>
      by_cases hn : 247 < n.toNat
      · have heff : effectOf (.frameMulti op n) s = s.reject .rejTooLong := if_pos hn
        refine ⟨_, _, hacc.trans (congrArg _ heff), rfl, rfl, lowByte_responseWord .rejTooLong 0, ?_⟩
        rw [if_pos hn]
        exact ⟨highByte_responseWord .rejTooLong 0, hidle⟩
      · have heff : effectOf (.frameMulti op n) s = s.startFrame op (lowByte n) .fromPin 0 := if_neg hn
        refine ⟨_, _, hacc.trans (congrArg _ heff), rfl, rfl, lowByte_responseWord .ok 0, ?_⟩
        rw [if_neg hn]
        exact ⟨highByte_responseWord .ok 0, rfl⟩

end Sys2Proof.Machine
end

section
/-! SUPPORT. What the CRC unit's statements need besides the layers above: the word of a one-byte operation, the rejection of
a word with stray bits, and the entries of the D1 table that equal their index (R55, R71). -/

namespace Sys2Proof.Machine

/-- What an operation answered where the port accepts is its effect. -/
theorem eq_effectOf_of_exec {s t : State} {i : Instr} (ha : s.canAccept = true) (ht : exec i s = .next t) :
    t = effectOf i s :=
  Host.Outcome.next.inj (ht.symm.trans (exec_of_canAccept ha i))

/-! ### Stray bits -/

theorem cmdSel_encode (i : Instr) : cmdSel (encode i) = i.sel := by
  cases i <;> exact cmdSel_packCommand ..

/-- A word that no operation with its `SEL` encodes is rejected, for the operations of another `SEL` do not encode it. -/
theorem acceptWord_stray {s : State} {w : CommandWord} {sel : BitVec 4} (ha : s.canAccept = true) (hsel : cmdSel w = sel)
    (h : ∀ i : Instr, i.sel = sel → w ≠ encode i) : acceptWord w s = .next { s with rsp := s.rsp ++ [0x0100] } := by
  have hne : ∀ i, w ≠ encode i := by
    rintro i rfl
    exact h i ((cmdSel_encode i).symm.trans hsel) rfl
  obtain ⟨why, hw⟩ := exists_illegal_of_ne_encode hne
  exact acceptWord_illegal ha hw

/-! ### The word of a one-byte operation -/

theorem setWidth_byte_eq_append (b : Byte) : b.setWidth 32 = 0#16 ++ byteArg b :=
  calc b.setWidth 32 = (byteArg b).setWidth 32 := by rw [byteArg, BitVec.setWidth_setWidth (by decide)]
    _ = 0#16 ++ byteArg b := BitVec.setWidth_eq_append (by decide)

/-- The form in which R53 writes the word: the operand byte in an otherwise fixed word. -/
theorem packCommand_byteArg_eq_or (sel : BitVec 4) (b : Byte) :
    packCommand sel 0 (byteArg b) = packCommand sel 0 0 ||| b.setWidth 32 := by
  rw [setWidth_byte_eq_append, packCommand, packCommand, BitVec.or_append, BitVec.or_zero]
  exact congrArg _ BitVec.zero_or.symm

/-- `W[27:8]` of the word is 0, for neither the fixed part nor the byte has a bit there (R75, R87). -/
theorem extractLsb'_packCommand_byteArg (sel : BitVec 4) (b : Byte) :
    (packCommand sel 0 (byteArg b)).extractLsb' 8 20 = 0 := by
  have hsel : ∀ sel : BitVec 4, (packCommand sel 0 0).extractLsb' 8 20 = 0 := by decide
  have hb : (b.setWidth 32).extractLsb' 8 20 = 0 := by
    ext i hi
    simp
  rw [packCommand_byteArg_eq_or, BitVec.extractLsb'_or, hsel, hb]
  rfl

/-! ### The D1 table -/

/-- The entries that equal their index (R71). -/
theorem crcTableD1_get_eq_iff (b : Byte) : crcTableD1.get b.toFin = b ↔ b = 0x00 ∨ b = 0xFD := by
  revert b
  decide

end Sys2Proof.Machine
end

section
/-! The statements of 40_crc.md on the checksum (R72, R73) and on the three operations of the CRC unit (R74 to R76). -/

namespace Sys2Proof.Machine

/-- Settles O15: `crc_step` is its definition, and a fold over a sequence cut in two is the second fold begun where the
first ended. -/
theorem checksumIsTableLookup : Obligations.ChecksumIsTableLookup := by
  refine fun c s b bs u v => ⟨rfl, rfl, rfl, ?_, List.foldl_append⟩
  calc checksum c [b] = c.crcTable.get (0#8 ^^^ b).toFin := rfl
    _ = c.crcTable.get b.toFin := by rw [BitVec.zero_xor]

/-- Settles O16: the effect of `CRC_CLR` leaves the port accepting, so that it can be applied again to what it answers. -/
theorem crcClrLoadsSeed : Obligations.CrcClrLoadsSeed := by
  intro s ha
  refine ⟨exec_of_canAccept ha _, acceptWord_op (decode_encode .crcClr), fun w hsel hstray => ?_, fun t ht => ?_⟩
  · refine acceptWord_stray ha hsel fun i hi => ?_
    cases i with
    | crcClr => rintro rfl; exact hstray rfl
    | _ => cases hi
  · obtain rfl := eq_effectOf_of_exec ha ht
    exact exec_of_canAccept (s := effectOf .crcClr s) ha .crcClr

/-- Settles O17: the effect of `CRC_UPD` is one table lookup; the corner cases are the index at `b = 0x00` and at
`b = CRC`, and under D1 the entries of the table. -/
theorem crcUpdStepsOnce : Obligations.CrcUpdStepsOnce := by
  intro b s ha
  have hcrc : ∀ {b' : Byte} {t : State}, exec (.crcUpd b') s = .next t → t.crc = crcStep s.cfg s.crc b' := by
    intro b' t ht
    rw [eq_effectOf_of_exec ha ht, effectOf]
  have hzero : ∀ t, exec (.crcUpd 0x00) s = .next t → t.crc = s.cfg.crcTable.get s.crc.toFin := by
    intro t ht
    have hindex : s.crc ^^^ 0x00 = s.crc := BitVec.xor_zero
    rw [hcrc ht, crcStep, memRead, hindex]
  refine ⟨exec_of_canAccept ha _, ?_, fun w hsel hstray => ?_, hzero, fun t ht => ?_, fun hd1 => ?_⟩
  · rw [← acceptWord_op (s := s) (decode_encode (.crcUpd b))]
    exact congrArg (acceptWord · s) (packCommand_byteArg_eq_or 0x2 b).symm
  · refine acceptWord_stray ha hsel fun i hi => ?_
    cases i with
    | crcUpd b' => rintro rfl; exact hstray (extractLsb'_packCommand_byteArg 0x2 b')
    | _ => cases hi
  · rw [hcrc ht, crcStep, memRead, BitVec.xor_self]
    rfl
  · refine ⟨fun t ht => ?_, ?_, fun t h0 ht => ?_, fun t h7E ht => ?_⟩
    · rw [hzero t ht, hd1]
      exact crcTableD1_get_eq_iff s.crc
    · rw [hd1]
      rfl
    · rw [hcrc ht, hd1, h0]
      rfl
    · rw [hcrc ht, hd1, h7E]
      rfl

/-- Settles O18: the effect of `CRC_RD` appends one response, whose bytes are read field by field, and leaves `CRC` and the
port as they are. -/
theorem crcRdReturnsRegister : Obligations.CrcRdReturnsRegister := by
  intro s ha
  refine ⟨⟨_, exec_of_canAccept ha _, highByte_responseWord .ok _, lowByte_responseWord .ok _, fun t ht => ?_⟩,
    acceptWord_op (decode_encode .crcRd), fun w hsel hstray => ?_, exec_of_canAccept rfl _, fun hF1 => ?_⟩
  · obtain rfl := eq_effectOf_of_exec ha ht
    exact exec_of_canAccept (s := effectOf .crcRd s) ha .crcRd
  · refine acceptWord_stray ha hsel fun i hi => ?_
    cases i with
    | crcRd => rintro rfl; exact hstray rfl
    | _ => cases hi
  · rw [exec_of_canAccept ha, effectOf, hF1]
    rfl

end Sys2Proof.Machine
end

section
/-! SUPPORT. What the mirror unit's statements need besides the layers above: `rev8` as the reversal of a bit vector, its
fixed bytes, and the answer of `MIRROR` and of `MIRROR_LINE` written with `rev8` (41_mirror.md R85 to R88). -/

namespace Sys2Proof.Machine

/-- The sum of R85 is the reversal of the bit vector. -/
theorem rev8_eq_reverse (b : Byte) : rev8 b = b.reverse := by
  revert b
  decide

theorem getLsbD_rev8 (b : Byte) {i : Nat} (hi : i < 8) : (rev8 b).getLsbD i = b.getLsbD (7 - i) := by
  rw [rev8_eq_reverse, BitVec.getLsbD_reverse, BitVec.getMsbD_eq_getLsbD, decide_eq_true hi, Bool.true_and]

/-- The bytes that are their own mirror image (R87). -/
theorem rev8_eq_self_iff (b : Byte) : rev8 b = b ↔
    b ∈ [0x00#8, 0x18#8, 0x24#8, 0x3C#8, 0x42#8, 0x5A#8, 0x66#8, 0x7E#8, 0x81#8, 0x99#8, 0xA5#8, 0xBD#8, 0xC3#8, 0xDB#8,
      0xE7#8, 0xFF#8] := by
  revert b
  decide

/-- `MIRROR b` appends its response and writes nothing else (R87). -/
theorem exec_mirror {s : State} (ha : s.canAccept = true) (b : Byte) :
    exec (.mirror b) s = .next { s with rsp := s.rsp ++ [responseWord .ok (rev8 b)] } := by
  rw [exec_of_canAccept ha, effectOf, memRead_mir]

/-- `MIRROR_LINE` appends one response for each byte of the line, in its order, and writes nothing else (R88). -/
theorem transactAll_mirrorLineOps {s : State} (ha : s.canAccept = true) (bs : List Byte) :
    transactAll (bareTransactions (mirrorLineOps bs)) s =
      .next { s with rsp := s.rsp ++ bs.map fun b => responseWord .ok (rev8 b) } := by
  induction bs generalizing s with
  | nil => simp [mirrorLineOps, bareTransactions]
  | cons b bs ih =>
    have hhead : transact ⟨.mirror b, []⟩ s = .next { s with rsp := s.rsp ++ [responseWord .ok (rev8 b)] } :=
      exec_mirror ha b
    rw [List.map_cons, List.append_cons]
    refine (transactAll_cons hhead).trans (ih ?_)
    exact ha

end Sys2Proof.Machine
end

section
/-! The statements of 41_mirror.md on `rev8` (R85), on `MIRROR` (R87) and on `MIRROR_LINE` (R88). -/

namespace Sys2Proof.Machine

/-- Settles O27: the effect of `MIRROR` is one response, whose bytes are read field by field; its word is in the form of
R53, and a word with a stray bit is no `MIRROR` word. -/
theorem mirrorReversesByte : Obligations.MirrorReversesByte := by
  refine ⟨fun b s ha => ⟨?_, ?_, fun w hsel hstray => ?_, exec_mirror ha 0xA2⟩, rfl, rfl, rfl, rev8_eq_self_iff⟩
  · exact ⟨_, exec_mirror ha b, highByte_responseWord .ok _, lowByte_responseWord .ok _⟩
  · rw [← acceptWord_op (s := s) (decode_encode (.mirror b))]
    exact congrArg (acceptWord · s) (packCommand_byteArg_eq_or 0x4 b).symm
  · refine acceptWord_stray ha hsel fun i hi => ?_
    cases i with
    | mirror b' => rintro rfl; exact hstray (extractLsb'_packCommand_byteArg 0x4 b')
    | _ => cases hi

/-- Settles O28: the responses of the line are those of its bytes, whose fields are read one by one. -/
theorem mirrorLineMirrorsEachByte : Obligations.MirrorLineMirrorsEachByte := by
  refine ⟨fun bs s ha => ⟨_, transactAll_mirrorLineOps ha bs, ?_, ?_⟩, rfl⟩
  · rw [List.map_map]
    exact List.map_congr_left fun b _ => highByte_responseWord .ok (rev8 b)
  · rw [List.map_map]
    exact List.map_congr_left fun b _ => lowByte_responseWord .ok (rev8 b)

/-- Settles O26: `rev8` is the reversal, and the table holds it at every index, whatever the configuration. -/
theorem rev8ReversesBits : Obligations.Rev8ReversesBits :=
  fun b => ⟨fun _ hi => getLsbD_rev8 b hi, memRead_mir Config.d1 b⟩

end Sys2Proof.Machine
end

section
/-! SUPPORT. The words of the frame operations as R98 to R100 write them, their stray bits, the rejection of a word that is
not legal, and the bytes of the frames that the transaction level emits. -/

namespace Sys2Proof.Machine

/-! ### Words -/

/-- The form in which R98 to R100 write the word: opcode and operand in an otherwise fixed word. -/
theorem packCommand_eq_or (sel : BitVec 4) (op : Byte) (arg : Half) :
    packCommand sel op arg = packCommand sel 0 0 ||| op.setWidth 32 <<< 16 ||| arg.setWidth 32 := by
  apply BitVec.eq_of_getLsbD_eq
  intro i hi
  simp only [packCommand, BitVec.getLsbD_or, BitVec.getLsbD_append, BitVec.getLsbD_shiftLeft, BitVec.getLsbD_setWidth]
  by_cases harg : i < 16
  · simp [harg, hi]
  have h16 : arg.getLsbD i = false := BitVec.getLsbD_of_ge arg i (by omega)
  by_cases hopc : i - 16 < 8
  · have h32 : i - 16 < 32 := by omega
    simp [harg, hopc, h16, hi, h32]
  · have h8 : op.getLsbD (i - 16) = false := BitVec.getLsbD_of_ge op (i - 16) (by omega)
    simp [harg, hopc, h16, h8]

/-- `W[15:8]` is the high byte of `ARG` (R51). -/
theorem extractLsb'_eq_highByte_cmdArg (w : CommandWord) : w.extractLsb' 8 8 = highByte (cmdArg w) :=
  (BitVec.extractLsb'_extractLsb'_of_le (by decide)).symm

/-- A word that is not legal encodes no operation, so it is rejected (R55). -/
theorem acceptWord_of_not_legal {s : State} {w : CommandWord} (ha : s.canAccept = true)
    (hl : CommandWord.legal w = false) : acceptWord w s = .next { s with rsp := s.rsp ++ [0x0100] } := by
  have hne : ∀ i, w ≠ encode i := by
    rintro i rfl
    simp [legal_encode] at hl
  obtain ⟨why, hw⟩ := exists_illegal_of_ne_encode hne
  exact acceptWord_illegal ha hw

/-! ### Frames -/

theorem checksum_singleton (c : Config) (b : Byte) : checksum c [b] = c.crcTable.get b.toFin :=
  calc checksum c [b] = c.crcTable.get (0#8 ^^^ b).toFin := rfl
    _ = c.crcTable.get b.toFin := by rw [BitVec.zero_xor]

theorem checksum_pair (c : Config) (a b : Byte) : checksum c [a, b] = crcStep c (c.crcTable.get a.toFin) b := by
  rw [← checksum_singleton]
  exact checksum_append_singleton c [a] b

/-- The length byte stands at frame offset 4 (R96). -/
theorem frameBytes_getElem?_four (c : Config) (op : Byte) (p : List Byte) :
    (frameBytes c op p)[4]? = some (BitVec.ofNat 8 p.length) := rfl

/-- The payload of a 16-bit value put together from two bytes, low byte first (R99). -/
theorem d16Payload_append (b1 b0 : Byte) : d16Payload (b1 ++ b0) = [b0, b1] := by
  rw [d16Payload, lowByte_append, highByte_append]

/-! ### Transactions -/

/-- The bytes of a `FRAME_D8`, written out (R98). -/
theorem transact_frameD8 {s : State} (ha : s.canAccept = true) (op d : Byte) : transact ⟨.frameD8 op d, []⟩ s =
    .next { s with
      rsp := s.rsp ++ [0x0000],
      out := s.out ++ [stx1, stx2, op, dirH2D, 0x01, lenHigh, d, s.cfg.crcTable.get d.toFin, etx] } := by
  rw [← checksum_singleton]
  exact emitFrame_of_canAccept ha op [d]

/-- The bytes of a `FRAME_D16`, written out (R99). -/
theorem transact_frameD16 {s : State} (ha : s.canAccept = true) (op : Byte) (v : Half) :
    transact ⟨.frameD16 op v, []⟩ s = .next { s with
      rsp := s.rsp ++ [0x0000],
      out := s.out ++ [stx1, stx2, op, dirH2D, 0x02, lenHigh, lowByte v, highByte v,
        crcStep s.cfg (s.cfg.crcTable.get (lowByte v).toFin) (highByte v), etx] } := by
  rw [← checksum_pair]
  exact emitFrame_of_canAccept ha op (d16Payload v)

theorem transact_frameMulti {s : State} (ha : s.canAccept = true) (op : Byte) {n : Half} {p : List Byte}
    (hn : n.toNat ≤ maxPayload) (hp : p.length = n.toNat) : transact ⟨.frameMulti op n, p⟩ s =
      .next { s with rsp := s.rsp ++ [0x0000], out := s.out ++ frameBytes s.cfg op p } := by
  simp only [transact]
  rw [if_neg (Nat.not_lt.2 hn), if_pos hp]
  exact emitFrame_of_canAccept ha op p

theorem transact_frameMulti_tooLong {s : State} (ha : s.canAccept = true) (op : Byte) {n : Half} (p : List Byte)
    (hn : maxPayload < n.toNat) : transact ⟨.frameMulti op n, p⟩ s = .next { s with rsp := s.rsp ++ [0x0200] } := by
  simp only [transact]
  rw [if_pos hn]
  exact accepted_of_canAccept ha _

theorem transact_frameMulti_mismatch (s : State) (op : Byte) {n : Half} {p : List Byte} (hn : n.toNat ≤ maxPayload)
    (hp : p.length ≠ n.toNat) : transact ⟨.frameMulti op n, p⟩ s = .refused .payloadLengthMismatch := by
  simp only [transact]
  rw [if_neg (Nat.not_lt.2 hn), if_neg hp]

end Sys2Proof.Machine
end

section
/-! SUPPORT. The framer with nobody to disturb it and a ready sink: its steps and its runs phase by phase, and a whole frame
from the accept step to the `TAIL` step (42_framer.md R103 to R108). -/

namespace Sys2Proof.Machine

/-! ### Undisturbed steps -/

/-- The block moves, `RESET` is released and the sink is ready: nothing holds an emit step but a missing payload byte. -/
structure State.Undisturbed (s : State) : Prop where
  resetPin : s.resetPin = false
  env : s.env = []
  sinkReady : s.sinkReady = true

/-- `s` with the frame `f` in progress, the bytes `pin` offered and the bytes `out` emitted: all that emit steps write. -/
def State.sending (s : State) (f : Frame) (pin out : List Byte) : State := { s with fr := .busy f, pin := pin, out := out }

theorem State.sending_self {s : State} {f : Frame} (hf : s.fr = .busy f) : s.sending f s.pin s.out = s := by
  rw [State.sending, ← hf]

section

variable {s : State} (h : s.Undisturbed) {f : Frame} {pin out : List Byte}
include h

theorem State.Undisturbed.step_sending : step (s.sending f pin out) = emitStep f (s.sending f pin out) :=
  (step_nil (s := s.sending f pin out) h.env).trans (blockStep_busy (s := s.sending f pin out) h.resetPin rfl)

theorem State.Undisturbed.step_head (hp : f.phase = .head) {x : Byte}
    (hx : (headerBytes f.opc f.len)[f.idx.toNat]? = some x) :
    step (s.sending f pin out) = .next (s.sending f.afterHead pin (out ++ [x])) :=
  h.step_sending.trans (emitHead_eq (s := s.sending f pin out) h.sinkReady hp hx)

theorem State.Undisturbed.step_payl_fromArg (hp : f.phase = .payl) (ha : f.src = .fromArg) :
    step (s.sending f pin out) = .next (s.sending (f.afterPayl s.cfg f.argByte) pin (out ++ [f.argByte])) :=
  h.step_sending.trans (emitPayl_fromArg (s := s.sending f pin out) h.sinkReady hp ha)

theorem State.Undisturbed.step_payl_fromPin (hp : f.phase = .payl) (ha : f.src = .fromPin) (x : Byte) :
    step (s.sending f (x :: pin) out) = .next (s.sending (f.afterPayl s.cfg x) pin (out ++ [x])) :=
  h.step_sending.trans (emitPayl_fromPin (s := s.sending f (x :: pin) out) h.sinkReady hp ha rfl)

theorem State.Undisturbed.step_csum (hp : f.phase = .csum) :
    step (s.sending f pin out) = .next (s.sending { f with phase := .tail } pin (out ++ [f.fcrc])) :=
  h.step_sending.trans (emitCsum_eq (s := s.sending f pin out) h.sinkReady hp)

theorem State.Undisturbed.step_tail (hp : f.phase = .tail) :
    step (s.sending f pin out) = .next { s with fr := .idle, pin := pin, out := out ++ [etx] } :=
  h.step_sending.trans (emitTail_eq (s := s.sending f pin out) h.sinkReady hp)

end

theorem Frame.afterHead_of_lt {f : Frame} (h : f.idx.toNat < 5) : f.afterHead = { f with idx := f.idx + 1 } := if_pos h

/-- After the last header byte the frame goes on with its payload, or with the checksum if it has none (R104). -/
theorem Frame.afterHead_of_eq {f : Frame} (h : f.idx.toNat = 5) :
    f.afterHead = { f with phase := if f.len = 0 then .csum else .payl, idx := 0 } := by
  rw [Frame.afterHead, if_neg (by omega)]
  split <;> rfl

theorem Frame.afterPayl_of_lt {f : Frame} (h : f.idx.toNat + 1 < f.len.toNat) (c : Config) (x : Byte) :
    f.afterPayl c x = { f with idx := f.idx + 1, fcrc := crcStep c f.fcrc x } := if_pos h

/-- After the last payload byte the frame goes on with its checksum (R105). -/
theorem Frame.afterPayl_of_not_lt {f : Frame} (h : ¬ f.idx.toNat + 1 < f.len.toNat) (c : Config) (x : Byte) :
    f.afterPayl c x = { f with phase := .csum, idx := 0, fcrc := crcStep c f.fcrc x } := if_neg h

/-! ### Runs through the phases -/

/-- `IDX` counted up from 0. -/
theorem toNat_zero_add_ofNat {k : Nat} (hk : k < 256) : (0 + BitVec.ofNat 8 k : Byte).toNat = k := by
  have hzero : (0 : Byte) + BitVec.ofNat 8 k = BitVec.ofNat 8 k := BitVec.zero_add _
  rw [hzero, BitVec.toNat_ofNat]
  exact Nat.mod_eq_of_lt hk

section

variable {s : State} (h : s.Undisturbed) {f : Frame} {pin out : List Byte}
include h

/-- The first `HEAD` steps of a frame emit the first bytes of its header. -/
theorem State.Undisturbed.runSteps_head_take (hp : f.phase = .head) (hi : f.idx = 0) {k : Nat} (hk : k ≤ 5) :
    runSteps k (s.sending f pin out) =
      .next (s.sending { f with idx := BitVec.ofNat 8 k } pin (out ++ (headerBytes f.opc f.len).take k)) := by
  induction k with
  | zero =>
    have hf : { f with idx := BitVec.ofNat 8 0 } = f := by rw [show BitVec.ofNat 8 0 = f.idx from hi.symm]
    rw [runSteps_zero, hf, List.take_zero, List.append_nil]
  | succ k ih =>
    have hidx : (BitVec.ofNat 8 k).toNat = k := by
      rw [BitVec.toNat_ofNat]
      omega
    have hlt : k < (headerBytes f.opc f.len).length := Nat.lt_of_lt_of_le hk (by simp [headerBytes])
    have hbyte : (headerBytes f.opc f.len)[(BitVec.ofNat 8 k).toNat]? = some (headerBytes f.opc f.len)[k] := by
      rw [hidx]
      exact List.getElem?_eq_getElem hlt
    have hstep := h.step_head (f := { f with idx := BitVec.ofNat 8 k }) (pin := pin)
      (out := out ++ (headerBytes f.opc f.len).take k) hp hbyte
    rw [runSteps_add (ih (by omega)), runSteps_succ_of_step hstep, Frame.afterHead_of_lt (by simp only [hidx]; omega)]
    simp [BitVec.ofNat_add]

/-- Six `HEAD` steps emit the header (R104). -/
theorem State.Undisturbed.runSteps_head (hp : f.phase = .head) (hi : f.idx = 0) :
    runSteps 6 (s.sending f pin out) =
      .next (s.sending { f with phase := if f.len = 0 then .csum else .payl, idx := 0 } pin
        (out ++ headerBytes f.opc f.len)) := by
  have hstep := h.step_head (f := { f with idx := 5#8 }) (pin := pin)
    (out := out ++ (headerBytes f.opc f.len).take 5) hp (x := lenHigh) rfl
  rw [runSteps_add (j := 5) (k := 1) (h.runSteps_head_take hp hi (by decide)), runSteps_succ_of_step hstep, runSteps_zero,
    Frame.afterHead_of_eq rfl]
  simp [headerBytes]

/-- Payload bytes offered on `PIN` are emitted one by one, as long as they are not the last (R105). -/
theorem State.Undisturbed.runSteps_payl_part (hp : f.phase = .payl) (ha : f.src = .fromPin) {q : List Byte}
    (hl : f.idx.toNat + q.length < f.len.toNat) :
    runSteps q.length (s.sending f (q ++ pin) out) =
      .next (s.sending { f with idx := f.idx + BitVec.ofNat 8 q.length, fcrc := checksumFrom s.cfg f.fcrc q } pin
        (out ++ q)) := by
  induction q generalizing f out with
  | nil => simp [checksumFrom]
  | cons x q ih =>
    rw [List.length_cons] at hl
    have hidx : (f.idx + 1).toNat = f.idx.toNat + 1 := toNat_succ_of_lt (by omega)
    rw [List.length_cons, List.cons_append, runSteps_succ_of_step (h.step_payl_fromPin hp ha x),
      Frame.afterPayl_of_lt (by omega), ih (f := { f with idx := f.idx + 1, fcrc := _ }) hp ha (by simp only [hidx]; omega)]
    simp [checksumFrom, BitVec.ofNat_add, BitVec.add_assoc, BitVec.add_comm 1#8]

/-- `LEN` steps emit a payload that is offered on `PIN` (R105). -/
theorem State.Undisturbed.runSteps_payl_fromPin (hp : f.phase = .payl) (ha : f.src = .fromPin) (hi : f.idx = 0)
    {p : List Byte} (hl : p.length = f.len.toNat) (hne : p ≠ []) :
    runSteps p.length (s.sending f (p ++ pin) out) =
      .next (s.sending { f with phase := .csum, idx := 0, fcrc := checksumFrom s.cfg f.fcrc p } pin (out ++ p)) := by
  obtain ⟨q, x, rfl⟩ := (List.eq_nil_or_concat' p).resolve_left hne
  rw [List.length_append, List.length_singleton] at hl ⊢
  have hidx : (f.idx + BitVec.ofNat 8 q.length).toNat = q.length := by
    rw [hi]
    exact toNat_zero_add_ofNat (by omega)
  have hpart : f.idx.toNat + q.length < f.len.toNat := by
    rw [hi, show (0 : Byte).toNat = 0 from rfl]
    omega
  rw [List.append_assoc, List.singleton_append, runSteps_add (h.runSteps_payl_part hp ha hpart),
    runSteps_succ_of_step (h.step_payl_fromPin (f := { f with idx := f.idx + _, fcrc := _ }) hp ha x), runSteps_zero,
    Frame.afterPayl_of_not_lt (by simp only [hidx]; omega)]
  simp [checksumFrom]

/-- `LEN` steps emit a payload that stands in `ARG` (R105). -/
theorem State.Undisturbed.runSteps_payl_fromArg (hp : f.phase = .payl) (ha : f.src = .fromArg) (hi : f.idx = 0)
    (hl : f.len = 1 ∨ f.len = 2) :
    runSteps f.len.toNat (s.sending f pin out) =
      .next (s.sending { f with phase := .csum, idx := 0, fcrc := checksumFrom s.cfg f.fcrc f.argPayload } pin
        (out ++ f.argPayload)) := by
  have hzero : f.argByte = lowByte f.arg := if_pos hi
  have hfirst := h.step_payl_fromArg (pin := pin) (out := out) hp ha
  rw [hzero] at hfirst
  obtain hl | hl := hl
  · have hpay : f.argPayload = [lowByte f.arg] := by simp [Frame.argPayload, d16Payload, hl]
    rw [Frame.afterPayl_of_not_lt (by simp [hi, hl])] at hfirst
    rw [hpay, show f.len.toNat = 1 by rw [hl]; rfl]
    exact runSteps_succ_of_step hfirst
  · have hpay : f.argPayload = [lowByte f.arg, highByte f.arg] := by simp [Frame.argPayload, d16Payload, hl]
    rw [Frame.afterPayl_of_lt (by simp [hi, hl]), hi] at hfirst
    have hsecond := h.step_payl_fromArg (f := { f with idx := 1#8, fcrc := crcStep s.cfg f.fcrc (lowByte f.arg) })
      (pin := pin) (out := out ++ [lowByte f.arg]) hp ha
    rw [Frame.afterPayl_of_not_lt (by simp [hl])] at hsecond
    rw [hpay, show f.len.toNat = 2 by rw [hl]; rfl]
    refine (runSteps_succ_of_step (k := 1) hfirst).trans ((runSteps_succ_of_step (k := 0) hsecond).trans ?_)
    simp [Frame.argByte, checksumFrom]

/-- The `CSUM` and the `TAIL` step end the frame (R106, R107). -/
theorem State.Undisturbed.runSteps_csum (hp : f.phase = .csum) :
    runSteps 2 (s.sending f pin out) = .next { s with fr := .idle, pin := pin, out := out ++ [f.fcrc, etx] } := by
  rw [runSteps_succ_of_step (h.step_csum hp), runSteps_succ_of_step (h.step_tail rfl)]
  simp

end

/-- A `PAYL` step without the byte it needs is held for any number of steps: there is no time-out (R105, R114). -/
theorem runSteps_starved {s : State} {f : Frame} (he : s.env = []) (hf : s.fr = .busy f) (hp : f.phase = .payl)
    (ha : f.src = .fromPin) (hpin : s.pin = []) (k : Nat) : runSteps k s = .next s :=
  runSteps_of_fixed ((step_nil he).trans (blockStep_paylPin_starved hf hp ha hpin)) k

/-! ### Whole frames -/

/-- The payload steps of the frame `f` get the bytes `p` when the host offers `pin`, and leave `rest` with it (R105). -/
structure Frame.Gets (f : Frame) (pin p rest : List Byte) : Prop where
  length : p.length = f.len.toNat
  fromArg : f.src = .fromArg → (f.len = 1 ∨ f.len = 2) ∧ p = f.argPayload ∧ rest = pin
  fromPin : f.src = .fromPin → pin = p ++ rest

/-- From the end of the header, `LEN` steps emit the payload that the frame gets; with none the checksum is next (R104,
R105). -/
theorem State.Undisturbed.runSteps_payload {s : State} (h : s.Undisturbed) {f : Frame} {pin p rest out : List Byte}
    (hg : f.Gets pin p rest) :
    runSteps p.length (s.sending { f with phase := if f.len = 0 then .csum else .payl, idx := 0 } pin out) =
      .next (s.sending { f with phase := .csum, idx := 0, fcrc := checksumFrom s.cfg f.fcrc p } rest (out ++ p)) := by
  have hlen := hg.length
  have hzero : f.len = 0 ↔ p = [] := by
    rw [← List.length_eq_zero_iff, hlen]
    exact BitVec.toNat_eq (y := 0#8)
  cases ha : f.src with
  | fromArg =>
    obtain ⟨hl, rfl, rfl⟩ := hg.fromArg ha
    rw [hlen, if_neg (by rintro h0; simp [h0] at hl)]
    exact h.runSteps_payl_fromArg (f := { f with src := .fromArg, phase := .payl, idx := 0 }) rfl rfl rfl hl
  | fromPin =>
    obtain rfl := hg.fromPin ha
    by_cases hp : p = []
    · rw [if_pos (hzero.2 hp)]
      simp [hp, checksumFrom]
    · rw [if_neg (mt hzero.1 hp)]
      exact h.runSteps_payl_fromPin (f := { f with src := .fromPin, phase := .payl, idx := 0 }) rfl rfl rfl hlen hp

/-- A frame that gets its payload is emitted whole in `LEN + 8` steps (R108). -/
theorem State.Undisturbed.runSteps_frame {s : State} (h : s.Undisturbed) {f : Frame} {pin p rest out : List Byte}
    (hp : f.phase = .head) (hi : f.idx = 0) (hc : f.fcrc = crcSeed) (hg : f.Gets pin p rest) :
    runSteps (p.length + 8) (s.sending f pin out) =
      .next { s with fr := .idle, pin := rest, out := out ++ frameBytes s.cfg f.opc p } := by
  have hlen : BitVec.ofNat 8 p.length = f.len := by rw [hg.length, BitVec.ofNat_toNat, BitVec.setWidth_eq]
  calc runSteps (p.length + 8) (s.sending f pin out)
      = runSteps (6 + (p.length + 2)) (s.sending f pin out) := by rw [show p.length + 8 = 6 + (p.length + 2) by omega]
    _ = runSteps (p.length + 2) (s.sending { f with phase := if f.len = 0 then .csum else .payl, idx := 0 } pin
          (out ++ headerBytes f.opc f.len)) := runSteps_add (h.runSteps_head hp hi)
    _ = runSteps 2 (s.sending { f with phase := .csum, idx := 0, fcrc := checksumFrom s.cfg f.fcrc p } rest
          (out ++ headerBytes f.opc f.len ++ p)) := runSteps_add (h.runSteps_payload hg)
    _ = .next { s with fr := .idle, pin := rest, out := out ++ frameBytes s.cfg f.opc p } := by
      rw [h.runSteps_csum rfl]
      simp [frameBytes, hlen, hc, checksum]

/-- The effect of a `FRAME_MULTI` whose payload fits (R103). -/
theorem effectOf_frameMulti (s : State) (op : Byte) {n : Half} (hn : n.toNat ≤ maxPayload) :
    effectOf (.frameMulti op n) s = s.startFrame op (lowByte n) .fromPin 0 := if_neg (Nat.not_lt.2 hn)

theorem effectOf_frameMulti_tooLong (s : State) (op : Byte) {n : Half} (hn : maxPayload < n.toNat) :
    effectOf (.frameMulti op n) s = s.reject .rejTooLong := if_pos hn

/-- `LEN` of an accepted `FRAME_MULTI` is its `N` (R103). -/
theorem toNat_lowByte {n : Half} (hn : n.toNat ≤ maxPayload) : (lowByte n).toNat = n.toNat := by
  simp only [maxPayload] at hn
  rw [lowByte, BitVec.extractLsb'_toNat, Nat.shiftRight_zero]
  exact Nat.mod_eq_of_lt (by omega)

/-- The accept step of an operation that the host presents first. -/
theorem step_encode {s : State} (ha : s.canAccept = true) (he : s.env = []) (i : Instr) :
    step { s with cmd := encode i :: s.cmd } = .next (effectOf i s) := by
  obtain ⟨hr, hf⟩ := (State.canAccept_iff s).1 ha
  rw [step_nil (s := { s with cmd := encode i :: s.cmd }) he,
    blockStep_idle_cons (s := { s with cmd := encode i :: s.cmd }) hr hf rfl]
  exact (acceptWord_op (decode_encode i)).trans (exec_of_canAccept ha i)

theorem step_frameMulti {s : State} (ha : s.canAccept = true) (he : s.env = []) (op : Byte) {n : Half}
    (hn : n.toNat ≤ maxPayload) : step { s with cmd := encode (.frameMulti op n) :: s.cmd } =
      .next (s.startFrame op (lowByte n) .fromPin 0) :=
  (step_encode ha he _).trans (congrArg _ (effectOf_frameMulti s op hn))

/-- An accepted frame operation whose payload is at hand answers, emits its whole frame, and leaves nothing else (R108,
R111). -/
theorem runSteps_frameOperation {s : State} (ha : s.canAccept = true) (hs : s.sinkReady = true) (he : s.env = [])
    {i : Instr} {op len : Byte} {src : Src} {arg : Half} (hi : effectOf i s = s.startFrame op len src arg)
    {p rest : List Byte} (hg : Frame.Gets ⟨op, len, src, arg, .head, 0, crcSeed⟩ s.pin p rest) :
    runSteps (p.length + 9) { s with cmd := encode i :: s.cmd } =
      .next { s with pin := rest, rsp := s.rsp ++ [0x0000], out := s.out ++ frameBytes s.cfg op p } := by
  obtain ⟨hr, hf⟩ := (State.canAccept_iff s).1 ha
  have hquiet : { s with rsp := s.rsp ++ [0x0000] }.Undisturbed := ⟨hr, he, hs⟩
  have hrun := hquiet.runSteps_frame (out := s.out) rfl rfl rfl hg
  rw [← hf] at hrun
  exact (runSteps_succ_of_step ((step_encode ha he i).trans (congrArg _ hi))).trans hrun

end Sys2Proof.Machine
end

section
/-! SUPPORT. A `FRAME_MULTI` to which the host offers too few bytes (42_framer.md R114). -/

namespace Sys2Proof.Machine

/-- What every step of a run keeps, with no step stopping, holds after any number of steps. -/
theorem runSteps_keeps {P : State → Prop} (hstep : ∀ s, P s → ∃ t, step s = .next t ∧ P t) {s : State} (h : P s)
    (k : Nat) : ∃ t, runSteps k s = .next t ∧ P t := by
  induction k generalizing s with
  | zero => exact ⟨s, rfl, h⟩
  | succ k ih =>
    obtain ⟨t, ht, hP⟩ := hstep s h
    rw [runSteps_succ_of_step ht]
    exact ih hP

/-- The emit step of a frame that has its invariant answers a next state: `HEAD` has a byte to emit (R22, R104). -/
theorem Frame.Inv.emitStep_next {c : Config} {f : Frame} {sofar : List Byte} (h : f.Inv c sofar) (s : State) :
    ∃ t, emitStep f s = .next t := by
  unfold emitStep
  split
  · cases hp : f.phase with
    | head =>
      obtain ⟨x, hx, -⟩ := h.afterHead hp
      exact ⟨_, by simp only [emitHead, Frame.headByte, hx]; rfl⟩
    | payl =>
      simp only [emitPayl]
      split <;> exact ⟨_, rfl⟩
    | csum | tail => exact ⟨_, rfl⟩
  · exact ⟨_, rfl⟩

/-- A `FRAME_MULTI` is being sent, the host offers fewer bytes than are missing, and nobody else is to move; `cmd` is
presented and `rsp` has been answered. -/
structure Underfed (cmd : List CommandWord) (rsp : List ResponseWord) (s : State) : Prop where
  resetPin : s.resetPin = false
  env : s.env = []
  frame : ∃ f sofar, s.fr = .busy f ∧ f.Inv s.cfg sofar ∧ f.src = .fromPin ∧ s.pin.length < f.missing
  cmd_eq : s.cmd = cmd
  rsp_eq : s.rsp = rsp

theorem underfed_startFrame {s : State} (ha : s.canAccept = true) (he : s.env = []) (op : Byte) {n : Half}
    (hn : n.toNat ≤ maxPayload) (hlt : s.pin.length < n.toNat) :
    Underfed s.cmd (s.rsp ++ [0x0000]) (s.startFrame op (lowByte n) .fromPin 0) := by
  have hlen := toNat_lowByte hn
  obtain ⟨hinv, -⟩ := Frame.Inv.start (c := s.cfg) (f := ⟨op, lowByte n, .fromPin, 0, .head, 0, crcSeed⟩) rfl rfl rfl
    (hlen.trans_le hn) nofun (fun _ => rfl)
  exact ⟨((State.canAccept_iff s).1 ha).1, he, ⟨_, [], rfl, hinv, rfl, hlt.trans_eq hlen.symm⟩, rfl, rfl⟩

/-- Every step leaves the frame underfed: a `HEAD` step misses as many bytes as before it, a `PAYL` step takes one of those
offered and misses one fewer, and with bytes missing there is no `CSUM` or `TAIL` step. -/
theorem Underfed.step {cmd : List CommandWord} {rsp : List ResponseWord} {s : State} (h : Underfed cmd rsp s) :
    ∃ t, step s = .next t ∧ Underfed cmd rsp t := by
  obtain ⟨hr, he, ⟨f, sofar, hf, hinv, hsrc, hlt⟩, hc, hq⟩ := h
  obtain ⟨t, ht⟩ := hinv.emitStep_next s
  refine ⟨t, (step_nil he).trans ((blockStep_busy hr hf).trans ht), ?_⟩
  obtain rfl | ⟨-, ⟨hp, x, -, rfl⟩ | ⟨-, harg, -⟩ | ⟨hp, -, x, rest, hpin, rfl⟩ | ⟨hp, -⟩ | ⟨hp, -⟩⟩ := emitStep_cases ht
  · exact ⟨hr, he, ⟨f, sofar, hf, hinv, hsrc, hlt⟩, hc, hq⟩
  · obtain ⟨-, -, hinv', -, -, hmissing, -, -, hsrc', -⟩ := hinv.afterHead hp
    exact ⟨hr, he, ⟨_, sofar, rfl, hinv', hsrc'.trans hsrc, hmissing ▸ hlt⟩, hc, hq⟩
  · cases harg.symm.trans hsrc
  · obtain ⟨hinv', -, -, hmissing, -, -, hsrc', -⟩ := hinv.afterPayl hp x (fun ha => nomatch ha.symm.trans hsrc)
    rw [hpin, List.length_cons, ← hmissing] at hlt
    exact ⟨hr, he, ⟨_, _, rfl, hinv', hsrc'.trans hsrc, Nat.lt_of_succ_lt_succ hlt⟩, hc, hq⟩
  · simp [Frame.missing, hp] at hlt
  · simp [Frame.missing, hp] at hlt

/-- With a ready sink the framer takes all that is offered, and then waits in `PAYL` for the next byte. -/
theorem runSteps_frameMulti_starved {s : State} (ha : s.canAccept = true) (hs : s.sinkReady = true) (he : s.env = [])
    (op : Byte) {n : Half} (hn : n.toNat ≤ maxPayload) (hlt : s.pin.length < n.toNat) :
    ∃ f : Frame, f.phase = .payl ∧ f.src = .fromPin ∧ f.idx.toNat = s.pin.length ∧
      runSteps (s.pin.length + 7) { s with cmd := encode (.frameMulti op n) :: s.cmd } =
        .next (State.sending { s with rsp := s.rsp ++ [0x0000] } f [] (s.out ++ headerBytes op (lowByte n) ++ s.pin)) := by
  have hlen := toNat_lowByte hn
  have hquiet : { s with rsp := s.rsp ++ [0x0000] }.Undisturbed := ⟨((State.canAccept_iff s).1 ha).1, he, hs⟩
  have hhead := hquiet.runSteps_head (f := ⟨op, lowByte n, .fromPin, 0, .head, 0, crcSeed⟩) (pin := s.pin) (out := s.out)
    rfl rfl
  have hpayl := hquiet.runSteps_payl_part (f := ⟨op, lowByte n, .fromPin, 0, .payl, 0, crcSeed⟩) (q := s.pin) (pin := [])
    (out := s.out ++ headerBytes op (lowByte n)) rfl rfl (by simpa [hlen] using hlt)
  have hne : lowByte n ≠ 0 := by
    intro h0
    rw [← hlen, h0] at hlt
    exact absurd hlt (Nat.not_lt_zero _)
  rw [if_neg hne] at hhead
  rw [List.append_nil] at hpayl
  refine ⟨⟨op, lowByte n, .fromPin, 0, .payl, 0 + BitVec.ofNat 8 s.pin.length, checksumFrom s.cfg crcSeed s.pin⟩,
    rfl, rfl, toNat_zero_add_ofNat (hlt.trans (hlen ▸ (lowByte n).isLt)), ?_⟩
  rw [show s.pin.length + 7 = 6 + s.pin.length + 1 by omega, runSteps_succ_of_step (step_frameMulti ha he op hn)]
  exact (runSteps_add hhead).trans hpayl

end Sys2Proof.Machine
end

section
/-! The statements of 42_framer.md on the steps of the framer (R101 to R107) and on the payload that the host owes (R114). -/

namespace Sys2Proof.Machine

/-- Settles O38: the effects of the three operations, and the two rejections, which leave the idle framer as it is. -/
theorem acceptStepStartsFrame : Obligations.AcceptStepStartsFrame := by
  intro s ha
  have hf := ((State.canAccept_iff s).1 ha).2
  refine ⟨fun op d => exec_of_canAccept ha _, fun op v => exec_of_canAccept ha _, fun op n hn => ?_, fun op n hn => ?_,
    fun w hl => ?_⟩
  · rw [exec_of_canAccept ha, effectOf_frameMulti s op hn]
    rfl
  · rw [exec_of_canAccept ha, effectOf_frameMulti_tooLong s op hn, ← hf]
    rfl
  · rw [acceptWord_of_not_legal ha hl, ← hf]

/-- Settles O40: one `HEAD` step by its equation, six by the run through the phase. -/
theorem headStepEmitsHeader : Obligations.HeadStepEmitsHeader := by
  intro s f hr hf hp hs
  refine ⟨fun x hx => (blockStep_busy hr hf).trans (emitHead_eq hs hp hx), fun hi he => ?_⟩
  have hrun := State.Undisturbed.runSteps_head ⟨hr, he, hs⟩ (pin := s.pin) (out := s.out) hp hi
  rwa [State.sending_self hf] at hrun

/-- Settles O41: one `PAYL` step by its equation, `LEN` of them by the run through the phase, and a step without a byte is
held for ever. -/
theorem paylStepEmitsPayload : Obligations.PaylStepEmitsPayload := by
  intro s f hr hf hp hs
  refine ⟨fun ha => ⟨f.argByte, rfl, (blockStep_busy hr hf).trans (emitPayl_fromArg hs hp ha)⟩,
    fun x rest ha hpin => (blockStep_busy hr hf).trans (emitPayl_fromPin hs hp ha hpin),
    fun p rest ha hi he hpin hl hne => ?_, fun ha hi he hl => ?_, fun ha hpin he => runSteps_starved he hf hp ha hpin⟩
  · have hrun := State.Undisturbed.runSteps_payl_fromPin ⟨hr, he, hs⟩ (pin := rest) (out := s.out) hp ha hi hl hne
    rwa [← hpin, State.sending_self hf] at hrun
  · have hrun := State.Undisturbed.runSteps_payl_fromArg ⟨hr, he, hs⟩ (pin := s.pin) (out := s.out) hp ha hi hl
    rwa [State.sending_self hf] at hrun

/-- Settles O42: both steps by their equations. -/
theorem csumAndTailSteps : Obligations.CsumAndTailSteps := by
  intro s f hr hf hs
  refine ⟨fun hp => (blockStep_busy hr hf).trans (emitCsum_eq hs hp), fun hp => ?_⟩
  exact ⟨_, (blockStep_busy hr hf).trans (emitTail_eq hs hp), rfl, (State.canAccept_iff _).2 ⟨hr, rfl⟩⟩

/-- Settles O48: the bytes are those of the frame that the transaction level emits. -/
theorem framingIsPure : Obligations.FramingIsPure := by
  rintro c ⟨i, p⟩ hwf hsteps
  have hlen : p.length = i.owed := beq_iff_eq.1 hwf
  cases i with
  | crcClr | crcUpd | crcRd | mirror => exact absurd hsteps (by simp [instrSteps])
  | frameD8 op d =>
    obtain rfl := List.length_eq_zero_iff.1 hlen
    refine ⟨frameBytes c op [d], ?_⟩
    rintro s rfl ha hs he
    refine runSteps_frameOperation (p := [d]) ha hs he rfl ⟨rfl, fun _ => ⟨.inl rfl, ?_, rfl⟩, nofun⟩
    simp [Frame.argPayload, d16Payload, lowByte_byteArg]
  | frameD16 op v =>
    obtain rfl := List.length_eq_zero_iff.1 hlen
    refine ⟨frameBytes c op (d16Payload v), ?_⟩
    rintro s rfl ha hs he
    exact runSteps_frameOperation (p := d16Payload v) ha hs he rfl ⟨rfl, fun _ => ⟨.inr rfl, rfl, rfl⟩, nofun⟩
  | frameMulti op n =>
    have hn : n.toNat ≤ maxPayload := by
      by_contra hn
      simp [instrSteps, Nat.not_le.1 hn] at hsteps
    have hl : p.length = n.toNat := hlen.trans (if_pos hn)
    refine ⟨frameBytes c op p, ?_⟩
    rintro s rfl ha hs he
    rw [show instrSteps (.frameMulti op n) = p.length + 9 from by rw [hl]; exact if_neg (Nat.not_lt.2 hn)]
    exact runSteps_frameOperation (s := { s with pin := p ++ s.pin }) ha hs he (effectOf_frameMulti _ op hn)
      ⟨hl.trans (toNat_lowByte hn).symm, nofun, fun _ => rfl⟩

/-- Settles O49: an underfed frame stays underfed, so that it never ends; a ready sink takes what is offered and the framer
then stays where it is; with enough bytes the frame ends and leaves the rest. -/
theorem hostDutyOnPin : Obligations.HostDutyOnPin := by
  intro op n s hn ha
  refine ⟨fun he hlt k hk => ?_, fun he hs hlt k hk => ?_, fun p extra he hs hpin hl => ?_,
    fun p hp => transact_frameMulti_mismatch s op hn hp⟩
  · obtain ⟨k, rfl⟩ := Nat.exists_eq_add_of_le' hk
    obtain ⟨t, ht, ⟨-, -, ⟨f, -, hf, -⟩, hcmd, hrsp⟩⟩ :=
      runSteps_keeps (fun _ h => h.step) (underfed_startFrame ha he op hn hlt) k
    rw [runSteps_succ_of_step (step_frameMulti ha he op hn)]
    exact ⟨t, ht, (State.busy_iff t).2 ⟨f, hf⟩, hcmd, hrsp⟩
  · obtain ⟨k, rfl⟩ := Nat.exists_eq_add_of_le hk
    obtain ⟨f, hp, hsrc, hidx, hrun⟩ := runSteps_frameMulti_starved ha hs he op hn hlt
    rw [runSteps_add hrun]
    have hheld := runSteps_starved (s := State.sending { s with rsp := s.rsp ++ [0x0000] } f []
      (s.out ++ headerBytes op (lowByte n) ++ s.pin)) he rfl hp hsrc rfl k
    exact ⟨_, f, hheld, rfl, hp, hidx, rfl, rfl, rfl⟩
  · have hrun := runSteps_frameOperation ha hs he (effectOf_frameMulti s op hn)
      (p := p) (rest := extra) ⟨hl.trans (toNat_lowByte hn).symm, nofun, fun _ => hpin⟩
    rw [hl] at hrun
    exact ⟨_, hrun, congrArg Framer.isBusy ((State.canAccept_iff s).1 ha).2, rfl⟩

end Sys2Proof.Machine
end

section
/-! The statements of 42_framer.md on the frame operations at the transaction level (R98 to R100) and on `IMAGE_ROW`
(R110). -/

namespace Sys2Proof.Machine

/-- Settles O32: the transaction emits the frame of one byte, whose checksum is one table entry. -/
theorem frameD8EmitsNineBytes : Obligations.FrameD8EmitsNineBytes := by
  intro op d s ha
  refine ⟨transact_frameD8 ha op d, ?_, fun t ht => ?_, fun w hsel hstray => ?_, fun hd1 => ⟨by rw [hd1]; rfl, ?_⟩⟩
  · rw [← acceptWord_op (s := s) (decode_encode (.frameD8 op d)), encode, packCommand_eq_or, byteArg,
      BitVec.setWidth_setWidth (by decide)]
    rfl
  · rw [eq_effectOf_of_exec ha ht]
    rfl
  · refine acceptWord_stray ha hsel fun i hi => ?_
    cases i with
    | frameD8 op' d' =>
      rintro rfl
      rw [extractLsb'_eq_highByte_cmdArg] at hstray
      exact hstray.elim (absurd (cmdRsv_packCommand ..)) (absurd (highByte_cmdArg_packCommand ..))
    | _ => cases hi
  · rw [transact_frameD8 ha, hd1]
    rfl

/-- Settles O33: the transaction emits the frame of the two bytes of the value, low byte first. -/
theorem frameD16EmitsTenBytes : Obligations.FrameD16EmitsTenBytes := by
  intro op v s ha
  refine ⟨transact_frameD16 ha op v, ?_, fun t ht => ?_, fun w hsel hstray => ?_, fun hd1 => ⟨by rw [hd1]; rfl, ?_⟩⟩
  · rw [← acceptWord_op (s := s) (decode_encode (.frameD16 op v)), encode, packCommand_eq_or]
    rfl
  · rw [eq_effectOf_of_exec ha ht]
    rfl
  · refine acceptWord_stray ha hsel fun i hi => ?_
    cases i with
    | frameD16 op' v' => rintro rfl; exact hstray (cmdRsv_packCommand ..)
    | _ => cases hi
  · rw [transact_frameD16 ha, hd1]
    rfl

/-- Settles O34: a payload that fits is framed and a longer one is rejected; the rest are lengths and bytes of that frame. -/
theorem frameMultiEmitsFrame : Obligations.FrameMultiEmitsFrame := by
  refine ⟨fun op n p s ha hl => ⟨?_, fun _ => ?_, ?_, fun w hsel hstray => ?_⟩,
    fun op b0 b1 s ha => ⟨?_, ?_, fun p hl => ?_⟩, fun c op p => ⟨fun hl => ?_, fun hl => ?_⟩, rfl⟩
  · split_ifs with hn
    · exact transact_frameMulti_tooLong ha op p hn
    · exact transact_frameMulti ha op (Nat.not_lt.1 hn) hl
  · rw [length_frameBytes, hl]
  · rw [← acceptWord_op (s := s) (decode_encode (.frameMulti op n)), encode, packCommand_eq_or]
    rfl
  · refine acceptWord_stray ha hsel fun i hi => ?_
    cases i with
    | frameMulti op' n' => rintro rfl; exact hstray (cmdRsv_packCommand ..)
    | _ => cases hi
  · rfl
  · exact congrArg (emitFrame op · s) (d16Payload_append b1 b0).symm
  · exact transact_frameMulti_tooLong ha op p (by decide)
  · rw [length_frameBytes, frameBytes_getElem?_four, hl]
    exact ⟨rfl, rfl⟩
  · rw [length_frameBytes, frameBytes_getElem?_four, hl]
    exact ⟨rfl, rfl⟩

/-- Settles O35: the mirrored line is answered byte by byte, and then its mirrored bytes are one `FRAME_MULTI` transaction. -/
theorem imageRowFramesMirroredLine : Obligations.ImageRowFramesMirroredLine := by
  refine ⟨fun bs s ha hlt => ⟨bs.map fun b => responseWord .ok (rev8 b), ?_, ?_, ?_⟩, rfl⟩
  · rw [List.map_map]
    exact List.map_congr_left fun b _ => highByte_responseWord .ok (rev8 b)
  · rw [List.map_map]
    exact List.map_congr_left fun b _ => lowByte_responseWord .ok (rev8 b)
  · have hn : (BitVec.ofNat 16 bs.length).toNat = bs.length := Nat.mod_eq_of_lt hlt
    rw [imageRow, transactAll_append (transactAll_mirrorLineOps ha bs)]
    split_ifs with hle
    · refine transactAll_cons (transact_frameMulti ?_ _ (hn.trans_le hle) ((List.length_map _).trans hn.symm))
      exact ha
    · refine transactAll_cons (transact_frameMulti_tooLong ?_ _ _ ((Nat.not_le.1 hle).trans_eq hn.symm))
      exact ha

end Sys2Proof.Machine
end

section
/-! SUPPORT. The status that answers a command word, as one function of the word (R121, R123, R125); that an accept step does
not read the responses (R21, R126); and that no operation and no step from a state with its invariant stops (R120). -/

namespace Sys2Proof.Machine

/-! ### The status of a word -/

theorem not_mem_assignedSel_iff : ∀ sel : BitVec 4, sel ∉ [0x1#4, 0x2#4, 0x3#4, 0x4#4, 0x8#4, 0x9#4, 0xA#4] ↔
    sel ∈ [0x0#4, 0x5#4, 0x6#4, 0x7#4, 0xB#4, 0xC#4, 0xD#4, 0xE#4, 0xF#4] := by decide

/-- A word is not legal when one of the conditions that R123 lists makes it so. -/
theorem not_legal_iff (w : CommandWord) : CommandWord.legal w = false ↔
    cmdSel w ∈ [0x0#4, 0x5#4, 0x6#4, 0x7#4, 0xB#4, 0xC#4, 0xD#4, 0xE#4, 0xF#4] ∨ cmdRsv w ≠ 0 ∨
      (cmdSel w ∈ [0x1#4, 0x2#4, 0x3#4, 0x4#4] ∧ cmdOpc w ≠ 0) ∨ (cmdSel w ∈ [0x1#4, 0x3#4] ∧ cmdArg w ≠ 0) ∨
      (cmdSel w ∈ [0x2#4, 0x4#4, 0x8#4] ∧ highByte (cmdArg w) ≠ 0) := by
  rw [← Bool.not_eq_true, legal_iff, ← not_mem_assignedSel_iff]
  simp only [not_and_or, Classical.not_imp, ne_eq]

/-- The status that answers a word where the port accepts: decoding first, and only a legal `FRAME_MULTI` is tested for its
length (R121, R125). -/
def wordStatus (w : CommandWord) : Status :=
  if CommandWord.legal w = false then .rejIllegal
  else if cmdSel w = 0xA ∧ maxPayload < (cmdArg w).toNat then .rejTooLong
  else .ok

theorem wordStatus_eq_rejIllegal_iff (w : CommandWord) : wordStatus w = .rejIllegal ↔ CommandWord.legal w = false := by
  unfold wordStatus
  split_ifs <;> simp_all

theorem wordStatus_of_legal {w : CommandWord} (hl : CommandWord.legal w = true) :
    wordStatus w = if cmdSel w = 0xA ∧ maxPayload < (cmdArg w).toNat then .rejTooLong else .ok :=
  if_neg (by simp [hl])

theorem wordStatus_eq_rejTooLong_iff {w : CommandWord} (hl : CommandWord.legal w = true) :
    wordStatus w = .rejTooLong ↔ cmdSel w = 0xA ∧ maxPayload < (cmdArg w).toNat := by
  rw [wordStatus_of_legal hl]
  simp

theorem wordStatus_frameMulti (op : Byte) (n : Half) :
    wordStatus (encode (.frameMulti op n)) = if maxPayload < n.toNat then .rejTooLong else .ok := by
  rw [wordStatus_of_legal (legal_encode _)]
  simp only [encode, cmdSel_packCommand, cmdArg_packCommand, true_and]

theorem wordStatus_encode_of_sel_ne {i : Instr} (h : i.sel ≠ 0xA) : wordStatus (encode i) = .ok := by
  rw [wordStatus_of_legal (legal_encode i), cmdSel_encode]
  exact if_neg fun hA => h hA.1

theorem statusCode_injective : Function.Injective statusCode := by
  intro a b
  cases a <;> cases b <;> simp [statusCode]

/-- An accepted word is answered with its status, and a status other than `OK` is that of a rejection (R121, R126). -/
theorem acceptWord_wordStatus {s : State} (ha : s.canAccept = true) (w : CommandWord) :
    ∃ t v, acceptWord w s = .next t ∧ t.rsp = s.rsp ++ [responseWord (wordStatus w) v] ∧
      (wordStatus w ≠ .ok → t = s.reject (wordStatus w)) := by
  cases hl : CommandWord.legal w with
  | false =>
    rw [(wordStatus_eq_rejIllegal_iff w).2 hl]
    exact ⟨_, 0, acceptWord_of_not_legal ha hl, rfl, fun _ => rfl⟩
  | true =>
    obtain ⟨i, rfl⟩ := exists_encode_of_legal hl
    refine ⟨effectOf i s, ?_⟩
    have hacc : acceptWord (encode i) s = .next (effectOf i s) :=
      (acceptWord_op (decode_encode i)).trans (exec_of_canAccept ha i)
    cases i with
    | crcClr | crcUpd | crcRd | mirror | frameD8 | frameD16 =>
      rw [wordStatus_encode_of_sel_ne (by simp [Instr.sel])]
      exact ⟨_, hacc, rfl, absurd rfl⟩
    | frameMulti op n =>
      rw [wordStatus_frameMulti]
      split_ifs with hn
      · exact ⟨0, hacc, congrArg State.rsp (effectOf_frameMulti_tooLong s op hn),
          fun _ => effectOf_frameMulti_tooLong s op hn⟩
      · exact ⟨0, hacc, congrArg State.rsp (effectOf_frameMulti s op (Nat.not_lt.1 hn)), absurd rfl⟩

/-- The accept step is the rejection with a cause exactly for the words whose status is that cause: a word has at most one
(R125). -/
theorem acceptWord_eq_reject_iff {s : State} (ha : s.canAccept = true) {w : CommandWord} {cause : Status}
    (hcause : cause ≠ .ok) : acceptWord w s = .next (s.reject cause) ↔ wordStatus w = cause := by
  obtain ⟨t, v, hacc, hrsp, hrej⟩ := acceptWord_wordStatus ha w
  constructor
  · intro h
    cases hacc.symm.trans h
    have hword : responseWord cause 0x00 = responseWord (wordStatus w) v := by simpa using hrsp
    apply statusCode_injective
    rw [← highByte_responseWord _ v, ← hword, highByte_responseWord]
  · rintro rfl
    rw [hacc, hrej hcause]

/-! ### The responses are not read -/

theorem effectOf_withRsp (i : Instr) (s : State) :
    ∃ q, ∀ r, effectOf i { s with rsp := r } = { effectOf i s with rsp := r ++ [q] } := by
  cases i with
  | crcClr | crcUpd | frameD8 | frameD16 => exact ⟨responseWord .ok 0x00, fun _ => rfl⟩
  | crcRd => exact ⟨responseWord .ok s.crc, fun _ => rfl⟩
  | mirror b => exact ⟨responseWord .ok (memRead s.cfg .mir b), fun _ => rfl⟩
  | frameMulti op n =>
    by_cases hn : maxPayload < n.toNat
    · refine ⟨responseWord .rejTooLong 0x00, fun r => ?_⟩
      rw [effectOf_frameMulti_tooLong _ op hn, effectOf_frameMulti_tooLong s op hn]
      rfl
    · refine ⟨responseWord .ok 0x00, fun r => ?_⟩
      rw [effectOf_frameMulti _ op (Nat.not_lt.1 hn), effectOf_frameMulti s op (Nat.not_lt.1 hn)]
      rfl

/-- An accept step appends a response that does not depend on those before it, and does not look at them otherwise (R21). -/
theorem acceptWord_withRsp {s : State} (ha : s.canAccept = true) (w : CommandWord) :
    ∃ (u : State) (q : ResponseWord), ∀ r, acceptWord w { s with rsp := r } = .next { u with rsp := r ++ [q] } := by
  have hr : ∀ r, { s with rsp := r }.canAccept = true := fun _ => ha
  cases hw : decode w with
  | op i =>
    obtain ⟨q, hq⟩ := effectOf_withRsp i s
    refine ⟨effectOf i s, q, fun r => ?_⟩
    rw [acceptWord_op hw, exec_of_canAccept (hr r), hq]
  | illegal why => exact ⟨s, 0x0100, fun r => acceptWord_illegal (hr r) hw⟩

/-! ### Nothing stops -/

theorem exec_next (i : Instr) (s : State) : ∃ t, exec i s = .next t := by
  rw [exec_eq]
  split <;> exact ⟨_, rfl⟩

/-- The block's turn answers a next state when a frame in progress has its invariant; only the emit step needs it. -/
theorem blockStep_next {s : State} (h : ∀ f, s.fr = .busy f → ∃ sofar, f.Inv s.cfg sofar) :
    ∃ t, blockStep s = .next t := by
  obtain hr | hr := Bool.eq_false_or_eq_true s.resetPin
  · exact ⟨s, blockStep_in_reset hr⟩
  obtain hf | ⟨f, hf⟩ := s.fr.idle_or_busy
  · cases hc : s.cmd with
    | nil => exact ⟨s, blockStep_idle_nil hf hc⟩
    | cons w rest =>
      obtain ⟨c, fr, q, hw⟩ := acceptWord_frame (s := { s with cmd := rest }) ((State.canAccept_iff _).2 ⟨hr, hf⟩) w
      exact ⟨_, (blockStep_idle_cons hr hf hc).trans hw⟩
  · obtain ⟨sofar, hinv⟩ := h f hf
    obtain ⟨t, ht⟩ := hinv.emitStep_next s
    exact ⟨t, (blockStep_busy hr hf).trans ht⟩

theorem State.Inv.frame_inv {s : State} (h : s.Inv) {f : Frame} (hf : s.fr = .busy f) : ∃ sofar, f.Inv s.cfg sofar := by
  obtain ⟨fs, -, hout⟩ := h.history
  rw [hf] at hout
  obtain ⟨sofar, hinv, -⟩ := hout
  exact ⟨sofar, hinv⟩

/-- A step from a state with the invariant answers a next state, whoever moves. -/
theorem State.Inv.step_next {s : State} (h : s.Inv) : ∃ t, step s = .next t := by
  cases he : s.env with
  | nil =>
    rw [step_nil he]
    exact blockStep_next fun f hf => h.frame_inv hf
  | cons e es =>
    by_cases hb : e = .block
    · subst hb
      rw [step_block he]
      exact blockStep_next (s := { s with env := es }) fun f hf => h.frame_inv hf
    · exact ⟨_, step_environment he hb⟩

/-! ### What holds a step -/

theorem Frame.starved_iff (f : Frame) (s : State) :
    f.starved s = true ↔ f.phase = .payl ∧ f.src = .fromPin ∧ s.pin = [] := by
  simp [Frame.starved, and_assoc]

theorem State.blockEnabled_busy {s : State} {f : Frame} (hr : s.resetPin = false) (hf : s.fr = .busy f) :
    s.blockEnabled = true ↔ s.sinkReady = true ∧ f.starved s = false := by
  simp [State.blockEnabled, hr, hf]

end Sys2Proof.Machine
end

section
/-! The statements of 60_exceptions.md: the causes of a rejection (R123, R125), what a rejection leaves (R120, R126), and what
holds a step (R131). -/

namespace Sys2Proof.Machine

/-- Settles O4: the listed words are those that are not legal, whose status is `REJ_ILLEGAL`. -/
theorem rejIllegalCovers : Obligations.RejIllegalCovers := by
  intro w s ha
  rw [← not_legal_iff, ← wordStatus_eq_rejIllegal_iff]
  exact (acceptWord_eq_reject_iff ha (by decide)).symm

/-- Settles O7: a word has one status, which is decided by legality first and then by `N`. -/
theorem decodingComesFirst : Obligations.DecodingComesFirst := by
  refine fun s ha => ⟨fun w hl => acceptWord_of_not_legal ha hl, fun w hl => ?_, ?_, ?_⟩
  · exact (acceptWord_eq_reject_iff (cause := .rejTooLong) ha (by decide)).trans (wordStatus_eq_rejTooLong_iff hl)
  · exact acceptWord_of_not_legal ha (by decide)
  · exact (acceptWord_eq_reject_iff (cause := .rejTooLong) ha (by decide)).2 (by decide)

/-- Settles O14: a held turn keeps the state; once it is lifted the emit step has the byte, the sink and a ready frame. -/
theorem heldStepsAndWhatLiftsThem : Obligations.HeldStepsAndWhatLiftsThem := by
  intro s hr
  refine ⟨fun f hf hs => ?_, fun f hf hp ha hpin => ?_, fun w rest hf hc => ?_⟩
  · refine ⟨blockStep_busy_held hf (.inr hs), (State.busy_iff s).2 ⟨f, hf⟩, fun hfed => ⟨?_, fun sofar hinv => ?_⟩⟩
    · exact (State.blockEnabled_busy (s := s.environment (.sink true)) hr hf).2 ⟨rfl, hfed⟩
    · have hbyte : ¬ (f.phase = .payl ∧ f.src = .fromPin ∧ s.pin = []) := by
        rw [← Frame.starved_iff, hfed]
        exact Bool.false_ne_true
      obtain ⟨t, ht⟩ := hinv.emitStep_next (s.environment (.sink true))
      obtain ⟨b, hb⟩ := emitStep_emits (s := s.environment (.sink true)) rfl hbyte ht
      exact ⟨t, b, (blockStep_busy (s := s.environment (.sink true)) hr hf).trans ht, hb⟩
  · refine ⟨blockStep_paylPin_starved hf hp ha hpin, (State.busy_iff s).2 ⟨f, hf⟩, fun hs b => ?_⟩
    have hoffer : (s.environment (.offer b)).pin = [b] := congrArg (· ++ [b]) hpin
    have hfed : f.starved (s.environment (.offer b)) = false := by
      rw [← Bool.not_eq_true, Frame.starved_iff, hoffer]
      exact fun h => List.cons_ne_nil _ _ h.2.2
    have hturn : blockStep (s.environment (.offer b)) = emitStep f (s.environment (.offer b)) := blockStep_busy hr hf
    exact ⟨(State.blockEnabled_busy (s := s.environment (.offer b)) hr hf).2 ⟨hs, hfed⟩, _,
      hturn.trans (emitPayl_fromPin (s := s.environment (.offer b)) hs hp ha hoffer), rfl⟩
  · obtain ⟨c, fr, q, hw⟩ := acceptWord_frame (s := { s with cmd := rest }) ((State.canAccept_iff _).2 ⟨hr, hf⟩) w
    exact ⟨_, q, (blockStep_idle_cons hr hf hc).trans hw, rfl, rfl⟩

/-- Settles O51: `exec` and the accept step always answer, the emit step by the invariant; the rejections by their status. -/
theorem blockNeverStops : Obligations.BlockNeverStops := by
  refine ⟨exec_next, fun s h => h.step_next, fun w s ha => ⟨fun hl => acceptWord_of_not_legal ha hl, ?_⟩⟩
  rintro op n rfl hn
  exact (acceptWord_eq_reject_iff ha (by decide)).2 ((wordStatus_frameMulti op n).trans (if_pos hn))

/-- Settles O52: a response whose status is not `OK` is a rejection's, and the next accept step does not read it. -/
theorem rejectionLeavesNoTrace : Obligations.RejectionLeavesNoTrace := by
  intro w s t q ha ht hq hhigh
  obtain ⟨t', v, hacc, hrsp, hrej⟩ := acceptWord_wordStatus ha w
  cases ht.symm.trans hacc
  obtain rfl : q = responseWord (wordStatus w) v := by simpa [hq] using hrsp
  have hne : wordStatus w ≠ .ok := by
    intro hok
    rw [highByte_responseWord, hok] at hhigh
    exact hhigh rfl
  have heq : t = { s with rsp := s.rsp ++ [responseWord (wordStatus w) v] } := by
    rw [← hq, hrej hne]
    rfl
  refine ⟨heq, fun w' => ?_⟩
  obtain ⟨u, q', hu⟩ := acceptWord_withRsp ha w'
  refine ⟨_, q', hu s.rsp, rfl, ?_⟩
  rw [heq, hu, List.append_assoc]
  rfl

end Sys2Proof.Machine
end

section
/-! SUPPORT. What the statements of 70_reset_and_hazards.md need besides the layers above: a turn in `Busy` is blind to `CMD`
(R144, R146), what it does to the frame in progress (R146), a stall of the sink (R147), and `CRC` over a sequence of
transactions (R149). -/

namespace Sys2Proof.Machine

/-! ### The words presented to a busy block -/

/-- No emit step reads or writes the command words that are with the host (R144). -/
theorem emitBlind_cmd (f : Frame) (ws : List CommandWord) : EmitBlind f (fun s => { s with cmd := ws }) where
  cfg _ := rfl
  sinkReady _ := rfl
  emit _ _ := rfl
  setFr _ _ := rfl
  payloadByte _ s := by
    cases hsrc : f.src with
    | fromArg => simp [Frame.payloadByte, hsrc]
    | fromPin => cases hpin : s.pin <;> simp [Frame.payloadByte, State.takePin, hsrc, hpin]

/-- In `Busy` the block's turn does not look at the command words (R144). -/
theorem blockStep_busy_withCmd {s t : State} {f : Frame} (hf : s.fr = .busy f) (h : blockStep s = .next t)
    (ws : List CommandWord) : blockStep { s with cmd := ws } = .next { t with cmd := ws } := by
  obtain ⟨hr, rfl⟩ | ⟨hr, he⟩ := blockStep_busy_cases hf h
  · exact blockStep_in_reset hr
  · exact (blockStep_busy (s := { s with cmd := ws }) hr hf).trans ((emitBlind_cmd f ws).emitStep_commutes he)

/-! ### The frame in progress -/

/-- `g` sends the frame that `f` sends: the fields that its command fixed are the same (R13). -/
def Frame.SameCommand (g f : Frame) : Prop := g.opc = f.opc ∧ g.len = f.len ∧ g.src = f.src ∧ g.arg = f.arg

theorem Frame.afterHead_sameCommand (f : Frame) : f.afterHead.SameCommand f := by
  unfold Frame.afterHead
  split_ifs <;> exact ⟨rfl, rfl, rfl, rfl⟩

theorem Frame.afterPayl_sameCommand (f : Frame) (c : Config) (x : Byte) : (f.afterPayl c x).SameCommand f := by
  by_cases hlt : f.idx.toNat + 1 < f.len.toNat
  · rw [Frame.afterPayl_of_lt hlt]
    exact ⟨rfl, rfl, rfl, rfl⟩
  · rw [Frame.afterPayl_of_not_lt hlt]
    exact ⟨rfl, rfl, rfl, rfl⟩

/-- An emit step goes on with the same frame until the `TAIL` step ends it (R146). -/
theorem emitStep_sameCommand {s t : State} {f : Frame} (hf : s.fr = .busy f) (h : emitStep f s = .next t) :
    (∃ g, t.fr = .busy g ∧ g.SameCommand f) ∨ (f.phase = .tail ∧ t.fr = .idle ∧ t.out = s.out ++ [etx]) := by
  obtain rfl | ⟨-, ⟨-, x, -, rfl⟩ | ⟨-, -, rfl⟩ | ⟨-, -, x, rest, -, rfl⟩ | ⟨-, rfl⟩ | ⟨hp, rfl⟩⟩ := emitStep_cases h
  · exact .inl ⟨f, hf, rfl, rfl, rfl, rfl⟩
  · exact .inl ⟨_, rfl, f.afterHead_sameCommand⟩
  · exact .inl ⟨_, rfl, f.afterPayl_sameCommand _ _⟩
  · exact .inl ⟨_, rfl, f.afterPayl_sameCommand _ _⟩
  · exact .inl ⟨_, rfl, rfl, rfl, rfl, rfl⟩
  · exact .inr ⟨hp, rfl, rfl⟩

/-- An emit step of a frame that has its invariant is held, or emits one byte and takes one from the steps left, the last
of which is the `TAIL` step (R108, R146). -/
theorem Frame.Inv.emitStep_stepsLeft {s t : State} {f : Frame} {sofar : List Byte} (hinv : f.Inv s.cfg sofar)
    (h : emitStep f s = .next t) :
    t = s ∨ (∃ g b, t.fr = .busy g ∧ t.out = s.out ++ [b] ∧ g.stepsLeft + 1 = f.stepsLeft) ∨
      (f.stepsLeft = 1 ∧ t.fr = .idle ∧ t.out = s.out ++ [etx]) := by
  obtain rfl | ⟨-, ⟨hp, x, -, rfl⟩ | ⟨hp, ha, rfl⟩ | ⟨hp, ha, x, rest, -, rfl⟩ | ⟨hp, rfl⟩ | ⟨hp, rfl⟩⟩ :=
    emitStep_cases h
  · exact .inl rfl
  · obtain ⟨-, -, -, -, hleft, -⟩ := hinv.afterHead hp
    exact .inr (.inl ⟨_, x, rfl, rfl, hleft⟩)
  · obtain ⟨-, -, hleft, -⟩ := hinv.afterPayl hp f.argByte fun _ => hinv.argByte hp ha
    exact .inr (.inl ⟨_, _, rfl, rfl, hleft⟩)
  · obtain ⟨-, -, hleft, -⟩ := hinv.afterPayl hp x fun harg => nomatch harg.symm.trans ha
    exact .inr (.inl ⟨_, x, rfl, rfl, hleft⟩)
  · exact .inr (.inl ⟨_, _, rfl, rfl, by simp [Frame.stepsLeft, hp]⟩)
  · exact .inr (.inr ⟨by simp [Frame.stepsLeft, hp], rfl, rfl⟩)

/-! ### A stall of the sink -/

theorem runSteps_one (s : State) : runSteps 1 s = step s := by
  rw [runSteps_succ]
  cases step s <;> rfl

/-- Turns of the block that fall into a stall only use up their entries in the schedule (R147). -/
theorem runSteps_stalled {s : State} (hb : s.busy = true) (hs : s.sinkReady = false) (k : Nat) (rest : List EnvEvent) :
    runSteps k { s with env := List.replicate k .block ++ rest } = .next { s with env := rest } := by
  obtain ⟨f, hf⟩ := (State.busy_iff s).1 hb
  induction k with
  | zero => rfl
  | succ k ih =>
    have hturn : step { s with env := List.replicate (k + 1) .block ++ rest } =
        .next { s with env := List.replicate k .block ++ rest } :=
      (step_block rfl).trans
        (blockStep_busy_held (s := { s with env := List.replicate k .block ++ rest }) hf (.inr hs))
    rw [runSteps_succ_of_step hturn, ih]

/-! ### `CRC` over a sequence of transactions -/

theorem checksumFrom_append (c : Config) (v : Byte) (bs bs' : List Byte) :
    checksumFrom c v (bs ++ bs') = checksumFrom c (checksumFrom c v bs) bs' := List.foldl_append

/-- A well-formed transaction other than `CRC_CLR` is answered by a block that accepts again, and feeds `CRC` its `CRC_UPD`
byte if it has one (R11, R149). -/
theorem transact_crc {s : State} (ha : s.canAccept = true) {t : Transaction} (hwf : t.wf = true)
    (hclr : t.op ≠ .crcClr) : ∃ u, transact t s = .next u ∧ u.canAccept = true ∧ u.cfg = s.cfg ∧
      u.crc = checksumFrom s.cfg s.crc (crcUpdByte t).toList := by
  obtain ⟨i, p⟩ := t
  cases i with
  | crcClr => exact absurd rfl hclr
  | crcUpd b => exact ⟨_, exec_of_canAccept ha (.crcUpd b), ha, rfl, rfl⟩
  | crcRd => exact ⟨_, exec_of_canAccept ha .crcRd, ha, rfl, rfl⟩
  | mirror b => exact ⟨_, exec_of_canAccept ha (.mirror b), ha, rfl, rfl⟩
  | frameD8 op d => exact ⟨_, emitFrame_of_canAccept ha op [d], ha, rfl, rfl⟩
  | frameD16 op v => exact ⟨_, emitFrame_of_canAccept ha op (d16Payload v), ha, rfl, rfl⟩
  | frameMulti op n =>
    by_cases hn : maxPayload < n.toNat
    · exact ⟨_, transact_frameMulti_tooLong ha op p hn, ha, rfl, rfl⟩
    · have hle : n.toNat ≤ maxPayload := Nat.not_lt.1 hn
      have hlen : p.length = n.toNat := by simpa [Transaction.wf, Instr.owed, hle] using hwf
      exact ⟨_, transact_frameMulti ha op hle hlen, ha, rfl, rfl⟩

/-- Without a `CRC_CLR` among them, transactions continue the checksum in `CRC` with the merged sequence of their `CRC_UPD`
bytes (R149). -/
theorem transactAll_crc {ts : List Transaction} {s : State} (ha : s.canAccept = true)
    (hts : ∀ t ∈ ts, t.wf = true ∧ t.op ≠ .crcClr) :
    ∃ u, transactAll ts s = .next u ∧ u.crc = checksumFrom s.cfg s.crc (ts.filterMap crcUpdByte) := by
  induction ts generalizing s with
  | nil => exact ⟨s, rfl, rfl⟩
  | cons t ts ih =>
    obtain ⟨⟨hwf, hclr⟩, hrest⟩ := List.forall_mem_cons.1 hts
    obtain ⟨v, hv, hacc, hcfg, hcrc⟩ := transact_crc ha hwf hclr
    obtain ⟨u, hu, hucrc⟩ := ih hacc hrest
    refine ⟨u, (transactAll_cons hv).trans hu, ?_⟩
    rw [hucrc, hcfg, hcrc, ← checksumFrom_append]
    cases hb : crcUpdByte t <;> simp [hb]

/-! ### The `RESET` input -/

theorem State.busy_of_idle {s : State} (h : s.fr = .idle) : s.busy = false := by
  rw [State.busy, h]
  rfl

/-- Driving `RESET` to `l`, unless it is released and stays so, leaves the block with its reset values (R140; log 5). -/
theorem State.driveReset_values {s : State} {l : Bool} (h : s.resetPin = true ∨ l = true) :
    (s.driveReset l).resetPin = l ∧ (s.driveReset l).crc = crcSeed ∧ (s.driveReset l).fr = .idle := by
  cases hr : s.resetPin with
  | true => simp [State.driveReset, hr]
  | false =>
    obtain rfl : l = true := h.resolve_left (by simp [hr])
    simp [State.driveReset, hr]

/-- The step in which the schedule drives `RESET` so (R140). -/
theorem step_reset_values {s : State} {l : Bool} {rest : List EnvEvent} (he : s.env = .reset l :: rest)
    (h : s.resetPin = true ∨ l = true) :
    ∃ t, step s = .next t ∧ t.resetPin = l ∧ t.crc = crcSeed ∧ t.fr = .idle :=
  ⟨_, step_environment he nofun, State.driveReset_values (s := { s with env := rest }) h⟩

end Sys2Proof.Machine
end

section
/-! The statements of 70_reset_and_hazards.md: the `RESET` input (R140), a busy block (R144, R146), a stalled sink (R147) and
the one accumulator `CRC` (R149). -/

namespace Sys2Proof.Machine

/-- Settles O10: the busy turn is blind to `CMD`, and after the `TAIL` step the port finds the word where it was. -/
theorem commandWhileBusyIsHeld : Obligations.CommandWhileBusyIsHeld := by
  intro s f w rest hr hf hc
  refine ⟨fun t h => ?_, fun hp hs => ?_⟩
  · obtain ⟨hcmd, hrsp⟩ := (commandPortAcceptsOnlyInIdle s t h).1 f hf
    exact ⟨hcmd.trans hc, hrsp, blockStep_busy_withCmd hf h⟩
  · exact ⟨_, (blockStep_busy hr hf).trans (emitTail_eq hs hp), rfl, blockStep_idle_cons hr rfl hc⟩

/-- Settles O13: the stalled turns change nothing, then the sink becomes ready and the turn after it is the held one. -/
theorem sinkStallLosesNothing : Obligations.SinkStallLosesNothing := by
  intro s k hb hs
  have hready : step { s with env := [.sink true, .block] } = .next { s with sinkReady := true, env := [.block] } :=
    step_environment (e := .sink true) (es := [.block]) rfl nofun
  rw [runSteps_add (runSteps_stalled hb hs k [.sink true, .block]), runSteps_succ_of_step hready, runSteps_one]
  exact step_block rfl

/-- Settles O20: `CRC_CLR` loads the seed, and the transactions after it continue the checksum from there. -/
theorem crcIsChecksumOfMergedUpdates : Obligations.CrcIsChecksumOfMergedUpdates := by
  intro ts s ha hts
  have hclr : transact ⟨.crcClr, []⟩ s = .next (effectOf .crcClr s) := exec_of_canAccept ha .crcClr
  rw [transactAll_cons hclr]
  exact transactAll_crc (s := effectOf .crcClr s) ha hts

/-- Settles O50: by the cases of an emit step, for the fields the command fixed and, under the invariant, the steps left. -/
theorem noCancellation : Obligations.NoCancellation := by
  intro s f hf t h
  refine ⟨blockStep_busy_withCmd hf h, ?_⟩
  obtain ⟨-, rfl⟩ | ⟨-, he⟩ := blockStep_busy_cases hf h
  · exact ⟨.inl ⟨f, hf, rfl, rfl, rfl, rfl⟩, fun _ _ => .inl rfl⟩
  · exact ⟨emitStep_sameCommand hf he, fun sofar hinv => hinv.emitStep_stepsLeft he⟩

/-- Settles O54: the invariant gives `Idle` while `RESET` is asserted, the moves of `RESET` give the reset values, and the
busy turn is blind to `CMD`. -/
theorem resetInput : Obligations.ResetInput := by
  intro s hinv
  refine ⟨fun hr => ?_, fun rest he => ?_, fun rest hr he => step_reset_values he (.inl hr), fun t other hb h => ?_,
    fun ha => ?_⟩
  · obtain ⟨-, hidle, -⟩ := hinv.in_reset hr
    exact ⟨blockStep_in_reset hr, State.busy_of_idle hidle⟩
  · obtain ⟨t, ht, hr, -, hidle⟩ := step_reset_values he (.inr rfl)
    exact ⟨t, ht, hr, State.busy_of_idle hidle⟩
  · obtain ⟨f, hf⟩ := (State.busy_iff s).1 hb
    exact blockStep_busy_withCmd hf h other
  · exact ⟨_, exec_of_canAccept ha .crcClr, rfl, rfl, rfl, rfl, rfl⟩

end Sys2Proof.Machine
end

section
/-! The statements of 30_encoding.md that decoder and encoder agree (R53, R54), and that a step runs the operation its word
decodes to (R16, R54). -/

namespace Sys2Proof.Machine

/-- Settles O2: a word that decodes packs the fields that were read from it, and the decoder reads back what was packed. -/
theorem decodeIffEncode : Obligations.DecodeIffEncode := by
  intro w i
  constructor
  · exact eq_encode_of_decode
  · rintro rfl
    exact decode_encode i

/-- Settles O1: each word is decoded field by field. -/
theorem specWordsDecode : Obligations.SpecWordsDecode := by
  unfold Obligations.SpecWordsDecode
  decide

/-- A word in the table's bits that is some operation's decodes to it as a command word. -/
theorem decode_of_decodeTableWord {w : Nat} {i : Instr} (h : decodeTableWord 32 w = some i) :
    decode (BitVec.ofNat 32 (w % 2 ^ 32)) = .op i := by
  rw [decodeTableWord, if_pos (Nat.le_refl 32)] at h
  cases hw : decode (BitVec.ofNat 32 (w % 2 ^ 32)) with
  | op j =>
    rw [hw] at h
    exact congrArg _ (Option.some.inj h)
  | illegal why =>
    rw [hw] at h
    cases h

/-- Settles O8: the step is the block's turn, whose accept step runs the decoded operation; where the port does not accept,
`exec` is held by its guard. -/
theorem stepRunsDecodedInstruction : Obligations.StepRunsDecodedInstruction := by
  refine ⟨fun s w i rest ha hc hw => ?_, fun s w i hw => ?_, fun s i h => exec_of_not ?_ i⟩
  · obtain ⟨hr, hf⟩ := (State.canAccept_iff s).1 ha
    refine ⟨fun he => ?_, fun es he => ?_⟩
    · rw [step_nil he, blockStep_idle_cons hr hf hc, acceptWord_op hw]
    · rw [step_block he, blockStep_idle_cons (s := { s with env := es }) hr hf hc, acceptWord_op hw]
  · have hword := decode_of_decodeTableWord hw
    have hturn : step (s.withFetchWord 32 w) = blockStep { s.withFetchWord 32 w with env := s.env } := step_block rfl
    rw [hturn, blockStep_idle_cons (s := { s.withFetchWord 32 w with env := s.env }) rfl rfl rfl, acceptWord_op hword]
    rfl
  · obtain h | h := h <;> simp [State.canAccept, h]

end Sys2Proof.Machine
end

section
/-! SUPPORT. A frame in progress followed to its end: how many bytes it has emitted, which payloads it can still become, what
one emit step makes of it, and its run when its payload is at hand (42_framer.md R104 to R108). -/

namespace Sys2Proof.Machine

/-! ### Bytes emitted and steps left -/

theorem Frame.stepsLeft_pos (f : Frame) : 0 < f.stepsLeft := by
  unfold Frame.stepsLeft
  split <;> omega

/-- Every emit step emits one of the `LEN + 8` bytes, so those emitted and the steps left make up the frame (R108). -/
theorem Frame.Inv.length_emitted {c : Config} {f : Frame} {sofar : List Byte} (h : f.Inv c sofar) :
    (f.emitted sofar).length + f.stepsLeft = f.len.toNat + 8 := by
  have hphase := h.at_phase
  have hheader : (headerBytes f.opc f.len).length = 6 := rfl
  unfold Frame.emitted Frame.stepsLeft
  cases hp : f.phase <;> simp only [hp] at hphase ⊢
  · rw [List.length_take, hheader]
    omega
  · rw [List.length_append, hheader]
    omega
  · rw [List.length_append, hheader]
    omega
  · rw [List.length_append, List.length_append, hheader, List.length_singleton]
    omega

/-- The steps left tell the phase (R108). -/
theorem Frame.Inv.phase_eq {c : Config} {f : Frame} {sofar : List Byte} (h : f.Inv c sofar) :
    f.phase = if f.len.toNat + 2 < f.stepsLeft then .head else if 2 < f.stepsLeft then .payl
      else if f.stepsLeft = 2 then .csum else .tail := by
  have hphase := h.at_phase
  unfold Frame.stepsLeft
  cases hp : f.phase <;> simp only [hp] at hphase ⊢
  · rw [if_pos (by omega)]
  · rw [if_neg (by omega), if_pos (by omega)]
  · rw [if_neg (by omega), if_neg (by omega), if_pos trivial]
  · rw [if_neg (by omega), if_neg (by omega), if_neg (by omega)]

/-! ### The payloads a frame can have -/

/-- `p` can be the payload of the frame: it has `LEN` bytes, and with `SRC = FROM_ARG` it is that of `ARG` (R61, R105). -/
def Frame.IsPayload (f : Frame) (p : List Byte) : Prop := p.length = f.len.toNat ∧ (f.src = .fromArg → p = f.argPayload)

theorem Frame.SameCommand.isPayload {f g : Frame} (h : g.SameCommand f) {p : List Byte} (hp : g.IsPayload p) :
    f.IsPayload p := by
  obtain ⟨-, hlen, hsrc, harg⟩ := h
  refine ⟨hp.1.trans (congrArg _ hlen), fun ha => ?_⟩
  rw [hp.2 (hsrc.trans ha), Frame.argPayload, Frame.argPayload, hlen, harg]

theorem Frame.SameCommand.refl (f : Frame) : f.SameCommand f := ⟨rfl, rfl, rfl, rfl⟩

theorem Frame.SameCommand.trans {f g e : Frame} (h : e.SameCommand g) (h' : g.SameCommand f) : e.SameCommand f :=
  ⟨h.1.trans h'.1, h.2.1.trans h'.2.1, h.2.2.1.trans h'.2.2.1, h.2.2.2.trans h'.2.2.2⟩

theorem Frame.Inv.length_argPayload {c : Config} {f : Frame} {sofar : List Byte} (h : f.Inv c sofar)
    (ha : f.src = .fromArg) : f.argPayload.length = f.len.toNat := by
  rw [Machine.length_argPayload]
  obtain ⟨⟨hl, -⟩ | hl, -⟩ := h.from_arg ha <;> simp [hl]

/-- What has been emitted of the payload is the start of some payload of the frame. -/
theorem Frame.Inv.exists_isPayload {c : Config} {f : Frame} {sofar : List Byte} (h : f.Inv c sofar) :
    ∃ p, sofar <+: p ∧ f.IsPayload p := by
  cases ha : f.src with
  | fromArg => exact ⟨f.argPayload, (h.from_arg ha).2, h.length_argPayload ha, fun _ => rfl⟩
  | fromPin =>
    have hle := h.sofar_le
    refine ⟨sofar ++ List.replicate (f.len.toNat - sofar.length) 0, List.prefix_append _ _, ?_, fun h => ?_⟩
    · rw [List.length_append, List.length_replicate]
      omega
    · rw [ha] at h
      cases h

/-- Once `LEN` bytes of the payload have been emitted they are the payload. -/
theorem Frame.Inv.isPayload {c : Config} {f : Frame} {sofar : List Byte} (h : f.Inv c sofar)
    (hl : sofar.length = f.len.toNat) : f.IsPayload sofar :=
  ⟨hl, fun ha => (h.from_arg ha).2.eq_of_length (hl.trans (h.length_argPayload ha).symm)⟩

/-! ### One emit step -/

/-- An emit step of a frame that has its invariant, behind the bytes `base` on `OUT`: the frame goes on with the same command
and its invariant, or the `TAIL` step completes it (R22, R104 to R107). -/
theorem Frame.Inv.emitStep_emitted {s t : State} {f : Frame} {sofar base : List Byte} (hinv : f.Inv s.cfg sofar)
    (hf : s.fr = .busy f) (hout : s.out = base ++ f.emitted sofar) (h : emitStep f s = .next t) :
    (∃ g more, t.fr = .busy g ∧ g.SameCommand f ∧ g.Inv s.cfg (sofar ++ more) ∧
      t.out = base ++ g.emitted (sofar ++ more)) ∨
    (t.fr = .idle ∧ f.IsPayload sofar ∧ t.out = base ++ frameBytes s.cfg f.opc sofar) := by
  obtain rfl | ⟨-, ⟨hp, x, hx, rfl⟩ | ⟨hp, ha, rfl⟩ | ⟨hp, ha, x, rest, -, rfl⟩ | ⟨hp, rfl⟩ | ⟨hp, rfl⟩⟩ :=
    emitStep_cases h
  · refine .inl ⟨f, [], hf, .refl f, ?_⟩
    rw [List.append_nil]
    exact ⟨hinv, hout⟩
  · obtain ⟨y, hy, hinv', hemit, -⟩ := hinv.afterHead hp
    obtain rfl : x = y := Option.some.inj (hx.symm.trans hy)
    refine .inl ⟨_, [], rfl, f.afterHead_sameCommand, ?_⟩
    rw [List.append_nil, hemit, hout, List.append_assoc]
    exact ⟨hinv', rfl⟩
  · obtain ⟨hinv', hemit, -⟩ := hinv.afterPayl hp f.argByte fun _ => hinv.argByte hp ha
    refine .inl ⟨_, [f.argByte], rfl, f.afterPayl_sameCommand _ _, hinv', ?_⟩
    rw [hemit, hout, List.append_assoc]
  · obtain ⟨hinv', hemit, -⟩ := hinv.afterPayl hp x fun harg => nomatch harg.symm.trans ha
    refine .inl ⟨_, [x], rfl, f.afterPayl_sameCommand _ _, hinv', ?_⟩
    rw [hemit, hout, List.append_assoc]
  · obtain ⟨hinv', hemit⟩ := hinv.afterCsum hp
    refine .inl ⟨_, [], rfl, .refl f, ?_⟩
    rw [List.append_nil, hemit, hout, List.append_assoc]
    exact ⟨hinv', rfl⟩
  · obtain ⟨hlen, hemit⟩ := hinv.afterTail hp
    refine .inr ⟨rfl, hinv.isPayload hlen, ?_⟩
    rw [← hemit, hout, List.append_assoc]

/-! ### A frame whose payload is at hand -/

/-- The frame, whose payload bytes emitted so far are `sofar`, gets the missing ones `more` when the host offers `pin`, and
leaves `rest` with it (R105). -/
structure Frame.Fed (c : Config) (f : Frame) (sofar more pin rest : List Byte) : Prop where
  inv : f.Inv c sofar
  missing : more.length = f.missing
  fromPin : f.src = .fromPin → pin = more ++ rest
  fromArg : f.src = .fromArg → pin = rest ∧ sofar ++ more = f.argPayload

/-- In `CSUM` and `TAIL` nothing is missing. -/
theorem Frame.Fed.nothing_missing {c : Config} {f : Frame} {sofar more pin rest : List Byte}
    (h : f.Fed c sofar more pin rest) (hp : f.phase = .csum ∨ f.phase = .tail) : more = [] ∧ pin = rest := by
  have hmore : more = [] := by
    rw [← List.length_eq_zero_iff, h.missing, Frame.missing]
    obtain hp | hp := hp <;> rw [hp]
  refine ⟨hmore, ?_⟩
  cases ha : f.src with
  | fromArg => exact (h.fromArg ha).1
  | fromPin => rw [h.fromPin ha, hmore, List.nil_append]

section

variable {s : State} (hs : s.Undisturbed) {f : Frame} {sofar more pin rest : List Byte} (base : List Byte)
include hs

/-- A `PAYL` step emits the first of the missing bytes, wherever it comes from (R105). -/
theorem State.Undisturbed.step_payl_fed (h : f.Fed s.cfg sofar more pin rest) (hp : f.phase = .payl) :
    ∃ x more' pin', more = x :: more' ∧ (f.afterPayl s.cfg x).Fed s.cfg (sofar ++ [x]) more' pin' rest ∧
      step (s.sending f pin (base ++ f.emitted sofar)) =
        .next (s.sending (f.afterPayl s.cfg x) pin' (base ++ (f.afterPayl s.cfg x).emitted (sofar ++ [x]))) := by
  obtain ⟨hinv, hmissing, hpin, harg⟩ := h
  have hpos : 0 < more.length := by
    have hphase := hinv.at_phase
    simp only [hp] at hphase
    simp only [hmissing, Frame.missing, hp]
    omega
  obtain ⟨x, more', rfl⟩ := List.exists_cons_of_length_pos hpos
  have hx : f.src = .fromArg → sofar ++ [x] <+: f.argPayload := fun ha => ⟨more', by rw [← (harg ha).2]; simp⟩
  obtain ⟨hinv', hemit, -, hmissing', -, hlen', hsrc', harg'⟩ := hinv.afterPayl hp x hx
  have hcount : more'.length = (f.afterPayl s.cfg x).missing := by
    rw [List.length_cons] at hmissing
    omega
  refine ⟨x, more', ?_⟩
  rw [hemit, ← List.append_assoc]
  cases ha : f.src with
  | fromArg =>
    obtain ⟨rfl, hall⟩ := harg ha
    obtain rfl : f.argByte = x := by
      have hnext := hinv.argByte hp ha
      rw [← hall, List.prefix_append_right_inj, List.cons_prefix_cons] at hnext
      exact hnext.1
    refine ⟨pin, rfl, ⟨hinv', hcount, fun h => ?_, fun _ => ⟨rfl, ?_⟩⟩, hs.step_payl_fromArg hp ha⟩
    · cases h.symm.trans (hsrc'.trans ha)
    · rw [Frame.argPayload, hlen', harg', ← Frame.argPayload, ← hall, List.append_assoc]
      rfl
  | fromPin =>
    rw [hpin ha]
    refine ⟨more' ++ rest, rfl, ⟨hinv', hcount, fun _ => rfl, fun h => ?_⟩, hs.step_payl_fromPin hp ha x⟩
    cases h.symm.trans (hsrc'.trans ha)

/-- A fed frame that is not at its last step goes on with the same payload, one step fewer left (R104 to R106, R108). -/
theorem State.Undisturbed.step_fed (h : f.Fed s.cfg sofar more pin rest) (hlast : f.stepsLeft ≠ 1) :
    ∃ g sofar' more' pin', step (s.sending f pin (base ++ f.emitted sofar)) =
        .next (s.sending g pin' (base ++ g.emitted sofar')) ∧
      g.Fed s.cfg sofar' more' pin' rest ∧ sofar' ++ more' = sofar ++ more ∧ g.stepsLeft + 1 = f.stepsLeft ∧
      g.opc = f.opc ∧ g.len = f.len := by
  cases hp : f.phase with
  | head =>
    obtain ⟨x, hx, hinv', hemit, hleft, hmissing, hopc, hlen, hsrc, harg⟩ := h.inv.afterHead hp
    refine ⟨f.afterHead, sofar, more, pin, ?_, ⟨hinv', h.missing.trans hmissing.symm, fun ha => ?_, fun ha => ?_⟩, rfl,
      hleft, hopc, hlen⟩
    · rw [hemit, ← List.append_assoc]
      exact hs.step_head hp hx
    · exact h.fromPin (hsrc ▸ ha)
    · rw [Frame.argPayload, hlen, harg]
      exact h.fromArg (hsrc ▸ ha)
  | payl =>
    obtain ⟨x, more', pin', rfl, hfed, hstep⟩ := hs.step_payl_fed base h hp
    have hx : f.src = .fromArg → sofar ++ [x] <+: f.argPayload := fun ha => ⟨more', by rw [← (h.fromArg ha).2]; simp⟩
    obtain ⟨-, -, hleft, -, hopc, hlen, -⟩ := h.inv.afterPayl hp x hx
    exact ⟨_, _, _, _, hstep, hfed, List.append_assoc .., hleft, hopc, hlen⟩
  | csum =>
    obtain ⟨hinv', hemit⟩ := h.inv.afterCsum hp
    refine ⟨{ f with phase := .tail }, sofar, more, pin, ?_, ⟨hinv', ?_, h.fromPin, h.fromArg⟩, rfl, ?_, rfl, rfl⟩
    · rw [hemit, ← List.append_assoc]
      exact hs.step_csum hp
    · simp [Frame.missing, (h.nothing_missing (.inl hp)).1]
    · simp [Frame.stepsLeft, hp]
  | tail => exact absurd (by rw [Frame.stepsLeft, hp]) hlast

/-- The last step of a fed frame completes it (R107). -/
theorem State.Undisturbed.step_fed_last (h : f.Fed s.cfg sofar more pin rest) (hlast : f.stepsLeft = 1) :
    step (s.sending f pin (base ++ f.emitted sofar)) =
      .next { s with fr := .idle, pin := rest, out := base ++ frameBytes s.cfg f.opc (sofar ++ more) } := by
  have hp : f.phase = .tail := by
    rw [h.inv.phase_eq, hlast]
    simp
  obtain ⟨rfl, rfl⟩ := h.nothing_missing (.inr hp)
  rw [List.append_nil, ← (h.inv.afterTail hp).2, ← List.append_assoc]
  exact hs.step_tail hp

/-! ### The run of a fed frame -/

/-- The first steps of a fed frame, one byte each (R108). -/
theorem State.Undisturbed.runSteps_fed_part (h : f.Fed s.cfg sofar more pin rest) {j : Nat} (hj : j < f.stepsLeft) :
    ∃ g sofar' more' pin', runSteps j (s.sending f pin (base ++ f.emitted sofar)) =
        .next (s.sending g pin' (base ++ g.emitted sofar')) ∧
      g.Fed s.cfg sofar' more' pin' rest ∧ sofar' ++ more' = sofar ++ more ∧ g.stepsLeft + j = f.stepsLeft ∧
      g.opc = f.opc ∧ g.len = f.len := by
  induction j with
  | zero => exact ⟨f, sofar, more, pin, rfl, h, rfl, rfl, rfl, rfl⟩
  | succ j ih =>
    obtain ⟨g, sofar', more', pin', hrun, hfed, hall, hleft, hopc, hlen⟩ := ih (by omega)
    obtain ⟨e, sofar'', more'', pin'', hstep, hfed', hall', hleft', hopc', hlen'⟩ := hs.step_fed base hfed (by omega)
    refine ⟨e, sofar'', more'', pin'', ?_, hfed', hall'.trans hall, by omega, hopc'.trans hopc, hlen'.trans hlen⟩
    rw [runSteps_add hrun, runSteps_one, hstep]

/-- A fed frame is completed in the steps left (R108, R152). -/
theorem State.Undisturbed.runSteps_fed (h : f.Fed s.cfg sofar more pin rest) :
    runSteps f.stepsLeft (s.sending f pin (base ++ f.emitted sofar)) =
      .next { s with fr := .idle, pin := rest, out := base ++ frameBytes s.cfg f.opc (sofar ++ more) } := by
  have hpos := f.stepsLeft_pos
  obtain ⟨g, sofar', more', pin', hrun, hfed, hall, hleft, hopc, -⟩ :=
    hs.runSteps_fed_part base h (j := f.stepsLeft - 1) (by omega)
  rw [show f.stepsLeft = f.stepsLeft - 1 + 1 by omega, runSteps_add hrun, runSteps_one,
    hs.step_fed_last base hfed (by omega), hopc, hall]

end

end Sys2Proof.Machine
end

section
/-! SUPPORT. A transaction at both levels: what it does at the transaction level, and the frame that its accept step starts,
which is fed by the transaction's payload (42_framer.md R95 to R103, R109). -/

namespace Sys2Proof.Machine

/-! ### The frame of a transaction -/

/-- The accept step of a transaction's operation starts the frame `f`, for which the payload bytes `p` are at hand; it takes
`LEN + 8` emit steps (R103, R108). -/
structure Starts (t : Transaction) (f : Frame) (p : List Byte) : Prop where
  effect : ∀ s, effectOf t.op s = { s with fr := .busy f, rsp := s.rsp ++ [0x0000] }
  fed : ∀ c pin, f.Fed c [] p (t.payload ++ pin) pin
  emitted : f.emitted [] = []
  stepsLeft : f.stepsLeft = p.length + 8
  len : f.len.toNat = p.length
  steps : instrSteps t.op = p.length + 9

/-- A frame as R103 starts it, with the payload that its source gives. -/
theorem starts_of_startFrame {t : Transaction} {op len : Byte} {src : Src} {arg : Half} {p : List Byte}
    (heffect : ∀ s, effectOf t.op s = s.startFrame op len src arg) (hlen : len.toNat = p.length)
    (hle : p.length ≤ maxPayload) (hsteps : instrSteps t.op = p.length + 9)
    (harg : src = .fromArg → (len = 1 ∧ highByte arg = 0 ∨ len = 2) ∧ t.payload = [] ∧
      p = (d16Payload arg).take len.toNat)
    (hpin : src = .fromPin → arg = 0 ∧ t.payload = p) :
    Starts t ⟨op, len, src, arg, .head, 0, crcSeed⟩ p where
  effect := heffect
  fed c pin := by
    obtain ⟨hinv, -⟩ := Frame.Inv.start (c := c) (f := ⟨op, len, src, arg, .head, 0, crcSeed⟩) rfl rfl rfl
      (hlen.trans_le hle) (fun ha => (harg ha).1) (fun ha => (hpin ha).1)
    refine ⟨hinv, hlen.symm, fun ha => ?_, fun ha => ⟨?_, (harg ha).2.2⟩⟩
    · rw [(hpin ha).2]
    · rw [(harg ha).2.1, List.nil_append]
  emitted := rfl
  stepsLeft := by
    have hzero : (0 : Byte).toNat = 0 := rfl
    simp only [Frame.stepsLeft, hlen, hzero]
    omega
  len := hlen
  steps := hsteps

/-- A transaction that emits a frame: its accept step starts that frame, and at the transaction level it answers and emits
the frame whole (R98 to R100, R103). -/
theorem starts_of_acceptedFrame {t : Transaction} (hwf : t.wf = true) {op : Byte} {p : List Byte}
    (hfr : acceptedFrame t = some (op, p)) : (∃ f, Starts t f p ∧ f.opc = op) ∧ ∀ s : State, s.canAccept = true →
      transact t s = .next { s with rsp := s.rsp ++ [0x0000], out := s.out ++ frameBytes s.cfg op p } := by
  obtain ⟨i, q⟩ := t
  have hlen : q.length = i.owed := beq_iff_eq.1 hwf
  cases i with
  | crcClr | crcUpd | crcRd | mirror => cases hfr
  | frameD8 op d =>
    cases hfr
    obtain rfl := List.length_eq_zero_iff.1 hlen
    refine ⟨⟨_, starts_of_startFrame (fun _ => rfl) rfl (by simp [maxPayload]) rfl (fun _ => ⟨?_, rfl, ?_⟩) nofun, rfl⟩,
      fun s ha => emitFrame_of_canAccept ha op [d]⟩
    · exact .inl ⟨rfl, highByte_byteArg d⟩
    · simp [d16Payload, lowByte_byteArg]
  | frameD16 op v =>
    cases hfr
    obtain rfl := List.length_eq_zero_iff.1 hlen
    exact ⟨⟨_, starts_of_startFrame (fun _ => rfl) rfl (by simp [d16Payload, maxPayload]) rfl
      (fun _ => ⟨.inr rfl, rfl, rfl⟩) nofun, rfl⟩, fun s ha => emitFrame_of_canAccept ha op (d16Payload v)⟩
  | frameMulti op n =>
    by_cases hn : maxPayload < n.toNat
    · cases (if_pos hn).symm.trans hfr
    · cases (if_neg hn).symm.trans hfr
      have hle : n.toNat ≤ maxPayload := Nat.not_lt.1 hn
      have hq : q.length = n.toNat := hlen.trans (if_pos hle)
      exact ⟨⟨_, starts_of_startFrame (fun s => effectOf_frameMulti s op hle) ((toNat_lowByte hle).trans hq.symm)
        (hq.trans_le hle) ((if_neg hn).trans (congrArg (· + 9) hq.symm)) nofun (fun _ => ⟨rfl, rfl⟩), rfl⟩,
        fun s ha => transact_frameMulti ha op hle hq⟩

/-- A transaction that emits no frame is its accept step, at both levels, and that step leaves the framer as it is (R74 to
R76, R87, R101). -/
theorem accept_of_no_frame {t : Transaction} (hwf : t.wf = true) (hfr : acceptedFrame t = none) :
    t.payload = [] ∧ instrSteps t.op = 1 ∧ (∀ s, transact t s = exec t.op s) ∧ ∀ s, (effectOf t.op s).fr = s.fr := by
  obtain ⟨i, p⟩ := t
  have hlen : p.length = i.owed := beq_iff_eq.1 hwf
  cases i with
  | crcClr | crcUpd | crcRd | mirror =>
    exact ⟨List.length_eq_zero_iff.1 hlen, rfl, fun _ => rfl, fun _ => rfl⟩
  | frameD8 | frameD16 => cases hfr
  | frameMulti op n =>
    by_cases hn : maxPayload < n.toNat
    · refine ⟨List.length_eq_zero_iff.1 (hlen.trans (if_neg (Nat.not_le.2 hn))), if_pos hn, fun s => ?_,
        fun s => ?_⟩
      · simp [transact, exec, execFrameMulti, hn]
      · rw [effectOf_frameMulti_tooLong s op hn, State.reject_fr]
    · cases (if_neg hn).symm.trans hfr

/-! ### Both levels -/

/-- The byte-serial steps of a transaction, its payload offered and the sink ready, end where the transaction level does
(R109). -/
theorem runSteps_transaction {t : Transaction} {s : State} (hwf : t.wf = true) (ha : s.canAccept = true)
    (hs : s.sinkReady = true) (he : s.env = []) :
    runSteps (instrSteps t.op) { s with cmd := encode t.op :: s.cmd, pin := t.payload ++ s.pin } = transact t s := by
  have haccept := step_encode (s := { s with pin := t.payload ++ s.pin }) ha he t.op
  obtain ⟨hr, hf⟩ := (State.canAccept_iff s).1 ha
  cases hfr : acceptedFrame t with
  | none =>
    obtain ⟨hp, hsteps, htrans, -⟩ := accept_of_no_frame hwf hfr
    rw [hsteps, runSteps_one, haccept, htrans, exec_of_canAccept ha, hp, List.nil_append]
  | some frame =>
    obtain ⟨⟨f, hstarts, hopc⟩, htrans⟩ := starts_of_acceptedFrame hwf hfr
    have hquiet : { s with rsp := s.rsp ++ [0x0000] }.Undisturbed := ⟨hr, he, hs⟩
    have hrun := hquiet.runSteps_fed s.out (hstarts.fed s.cfg s.pin)
    rw [hstarts.emitted, List.append_nil, hstarts.stepsLeft, hopc, ← hf] at hrun
    rw [hstarts.effect] at haccept
    rw [hstarts.steps, htrans s ha]
    exact (runSteps_succ_of_step haccept).trans hrun

/-- No operation looks at what else is presented and offered (R14, R16). -/
theorem effectOf_withHost (i : Instr) (s : State) (cmd : List CommandWord) (pin : List Byte) :
    effectOf i { s with cmd := cmd, pin := pin } = { effectOf i s with cmd := cmd, pin := pin } := by
  cases i with
  | crcClr | crcUpd | crcRd | mirror | frameD8 | frameD16 => rfl
  | frameMulti op n =>
    simp only [effectOf]
    split <;> rfl

/-- What a transaction leaves, the same whatever else is presented and offered: at most `CRC` written, one response, and the
bytes of its frame on `OUT` (R98 to R101). -/
theorem transact_frame {t : Transaction} {s : State} (hwf : t.wf = true) (ha : s.canAccept = true) :
    ∃ c q, ∀ cmd pin, transact t { s with cmd := cmd, pin := pin } =
      .next { s with
        cmd := cmd, pin := pin, crc := c, rsp := s.rsp ++ [q],
        out := s.out ++ framesBytes s.cfg (acceptedFrame t).toList } := by
  cases hfr : acceptedFrame t with
  | none =>
    obtain ⟨-, -, htrans, hfr'⟩ := accept_of_no_frame hwf hfr
    obtain ⟨c, fr, q, heffect⟩ := effectOf_frame t.op s
    obtain rfl : fr = s.fr := by rw [← hfr' s, heffect]
    refine ⟨c, q, fun cmd pin => ?_⟩
    rw [htrans, exec_of_canAccept (s := { s with cmd := cmd, pin := pin }) ha, effectOf_withHost, heffect]
    simp [framesBytes]
  | some frame =>
    refine ⟨s.crc, 0x0000, fun cmd pin => ?_⟩
    rw [(starts_of_acceptedFrame hwf hfr).2 { s with cmd := cmd, pin := pin } ha]
    simp [framesBytes]

theorem framesBytes_append (c : Config) (fs gs : List (Byte × List Byte)) :
    framesBytes c (fs ++ gs) = framesBytes c fs ++ framesBytes c gs := List.flatMap_append

/-- A program runs byte-serially as its transactions do one after the other (R109, R148). -/
theorem runSteps_program {ts : List Transaction} {s : State} (hwf : ∀ t ∈ ts, t.wf = true) (ha : s.canAccept = true)
    (hs : s.sinkReady = true) (he : s.env = []) :
    ∃ c qs, qs.length = ts.length ∧
      transactAll ts s = .next { s with
        crc := c, rsp := s.rsp ++ qs, out := s.out ++ framesBytes s.cfg (ts.filterMap acceptedFrame) } ∧
      runSteps (programSteps ts) { s with cmd := commandWords ts ++ s.cmd, pin := payloadBytes ts ++ s.pin } =
        transactAll ts s := by
  induction ts generalizing s with
  | nil => exact ⟨s.crc, [], rfl, by simp [framesBytes], rfl⟩
  | cons t ts ih =>
    obtain ⟨hwt, hwts⟩ := List.forall_mem_cons.1 hwf
    obtain ⟨c, q, hcq⟩ := transact_frame hwt ha
    have hrun := runSteps_transaction (s := { s with cmd := commandWords ts ++ s.cmd, pin := payloadBytes ts ++ s.pin })
      hwt ha hs he
    rw [hcq] at hrun
    obtain ⟨c', qs, hlen, htrans, hrest⟩ := ih (s := { s with
      crc := c, rsp := s.rsp ++ [q], out := s.out ++ framesBytes s.cfg (acceptedFrame t).toList }) hwts ha hs he
    have hall := (transactAll_cons (hcq s.cmd s.pin)).trans htrans
    refine ⟨c', q :: qs, congrArg (· + 1) hlen, ?_, ?_⟩
    · have hframes : (t :: ts).filterMap acceptedFrame = (acceptedFrame t).toList ++ ts.filterMap acceptedFrame := by
        cases hfr : acceptedFrame t <;> simp [hfr]
      rw [hframes, framesBytes_append, hall]
      simp
    · rw [← transactAll_cons (ts := ts) (hcq s.cmd s.pin)] at hrest
      rw [← hrest, ← runSteps_add hrun]
      simp [programSteps, commandWords, payloadBytes]

end Sys2Proof.Machine
end

section
/-! The statements of 42_framer.md on the run of a frame (R108, R152) and on the agreement of the two levels (R109, R148). -/

namespace Sys2Proof.Machine

/-- Settles O46: a frame in progress whose missing bytes are at hand is fed. -/
theorem frameCompletesFromAnyPoint : Obligations.FrameCompletesFromAnyPoint := by
  intro s f sofar more rest base hf hinv hr he hs hmissing hpin harg hout
  have hrun := State.Undisturbed.runSteps_fed ⟨hr, he, hs⟩ base ⟨hinv, hmissing, hpin, harg⟩
  rwa [← hout, State.sending_self hf] at hrun

/-- One of the three frame operations with its payload, as the transaction that emits a frame of `n` payload bytes. -/
theorem exists_acceptedFrame {i : Instr} {n : Nat} {p : List Byte}
    (h : (∃ op d, i = .frameD8 op d ∧ n = 1 ∧ p = []) ∨ (∃ op v, i = .frameD16 op v ∧ n = 2 ∧ p = []) ∨
      (∃ op m, i = .frameMulti op m ∧ m.toNat ≤ 247 ∧ n = m.toNat ∧ p.length = n)) :
    ∃ op q, Transaction.wf ⟨i, p⟩ = true ∧ acceptedFrame ⟨i, p⟩ = some (op, q) ∧ q.length = n := by
  obtain ⟨op, d, rfl, rfl, rfl⟩ | ⟨op, v, rfl, rfl, rfl⟩ | ⟨op, m, rfl, hm, rfl, hp⟩ := h
  · exact ⟨op, [d], rfl, rfl, rfl⟩
  · exact ⟨op, d16Payload v, rfl, rfl, rfl⟩
  · exact ⟨op, p, beq_iff_eq.2 (hp.trans (if_pos hm).symm), if_neg (Nat.not_lt.2 hm), hp⟩

/-- Settles O43: the accept step starts a fed frame, whose emit steps take one byte each; the steps left tell the phase. -/
theorem frameStepCount : Obligations.FrameStepCount := by
  intro i n p s hi ha hs he
  obtain ⟨op, q, hwf, hfr, rfl⟩ := exists_acceptedFrame hi
  obtain ⟨⟨f, hstarts, -⟩, htrans⟩ := starts_of_acceptedFrame hwf hfr
  obtain ⟨hr, hidle⟩ := (State.canAccept_iff s).1 ha
  refine ⟨fun k hk hk' => ?_, ?_⟩
  · obtain ⟨j, rfl⟩ := Nat.exists_eq_add_of_le' hk
    have hquiet : { s with rsp := s.rsp ++ [0x0000] }.Undisturbed := ⟨hr, he, hs⟩
    have hlt : j < f.stepsLeft := by
      rw [hstarts.stepsLeft]
      omega
    obtain ⟨g, sofar, more, pin, hrun, hfed, -, hleft, -, hlen⟩ :=
      hquiet.runSteps_fed_part s.out (hstarts.fed s.cfg s.pin) hlt
    have haccept := (step_encode (s := { s with pin := p ++ s.pin }) ha he i).trans (congrArg _ (hstarts.effect _))
    have hcount := hfed.inv.length_emitted
    rw [hstarts.emitted, List.append_nil] at hrun
    rw [hstarts.stepsLeft] at hleft
    rw [hlen, hstarts.len] at hcount
    refine ⟨_, g, (runSteps_succ_of_step haccept).trans hrun, rfl, ?_, rfl, rfl, ?_⟩
    · have hhead : q.length + 2 < g.stepsLeft ↔ j + 1 ≤ 6 := by omega
      have hpayl : 2 < g.stepsLeft ↔ j + 1 ≤ q.length + 6 := by omega
      have hcsum : g.stepsLeft = 2 ↔ j + 1 = q.length + 7 := by omega
      simp only [hfed.inv.phase_eq, hlen, hstarts.len, hhead, hpayl, hcsum]
    · simp only [State.sending, List.length_append]
      omega
  · have hrun := runSteps_transaction hwf ha hs he
    rw [htrans s ha, hstarts.steps] at hrun
    refine ⟨_, hrun, hidle, rfl, rfl, ?_⟩
    rw [List.length_append, length_frameBytes]

/-- Settles O44: without a frame both levels are the accept step; with one, the accept step starts a fed frame. -/
theorem byteSerialAgreesWithTransaction : Obligations.ByteSerialAgreesWithTransaction :=
  fun _ _ hwf ha hs he => runSteps_transaction hwf ha hs he

/-- Settles O45: by induction over the transactions, each of which leaves the words and bytes of the later ones alone. -/
theorem programRunsAsItsTransactions : Obligations.ProgramRunsAsItsTransactions := by
  intro ts s hwf ha hs he
  obtain ⟨c, qs, hlen, htrans, hrun⟩ := runSteps_program hwf ha hs he
  have hidle := ((State.canAccept_iff s).1 ha).2
  refine ⟨_, hrun.trans htrans, htrans, hidle, rfl, rfl, by simp [hlen], rfl, fun hc => ?_⟩
  simp [State.runIsOver, State.wordsToCome, State.busy, Framer.isBusy, hc, he, hidle]

end Sys2Proof.Machine
end

section
/-! What the operations leave unchanged: the CRC unit and the mirror (R74 to R76, R87, R91), and the framer with its emit steps
(R103 to R107, R111). -/

namespace Sys2Proof.Machine

/-- What `exec` answers: the operation's effect where the port accepts, and else the state as it is. -/
theorem exec_cases {s t : State} {i : Instr} (h : exec i s = .next t) : t = effectOf i s ∨ t = s := by
  rw [exec_eq] at h
  split at h
  · exact .inl (Host.Outcome.next.inj h).symm
  · exact .inr (Host.Outcome.next.inj h).symm

/-- An operation writes at most `CRC` and `FR`, and answers at most one response (R16). -/
theorem exec_frame {s t : State} {i : Instr} (h : exec i s = .next t) :
    ∃ c fr qs, t = { s with crc := c, fr := fr, rsp := s.rsp ++ qs } := by
  obtain rfl | rfl := exec_cases h
  · obtain ⟨c, fr, q, heffect⟩ := effectOf_frame i s
    exact ⟨c, fr, [q], heffect⟩
  · exact ⟨t.crc, t.fr, [], by rw [List.append_nil]⟩

/-- Settles O30: the frame of `exec`, with `FR` kept by all four operations and `CRC` by two of them. -/
theorem crcAndMirrorFrame : Obligations.CrcAndMirrorFrame := by
  intro s t i hi h
  have hfr : t.fr = s.fr := by
    obtain rfl | rfl := exec_cases h
    · obtain rfl | ⟨b, rfl⟩ | rfl | ⟨b, rfl⟩ := hi <;> rfl
    · rfl
  have hcrc : (i = .crcRd ∨ ∃ b, i = .mirror b) → t.crc = s.crc := by
    intro hi
    obtain rfl | rfl := exec_cases h
    · obtain rfl | ⟨b, rfl⟩ := hi <;> rfl
    · rfl
  obtain ⟨c, fr, qs, rfl⟩ := exec_frame h
  exact ⟨hfr, rfl, rfl, rfl, rfl, rfl, rfl, rfl, fun _ _ => rfl, hcrc, qs, rfl⟩

/-- Settles O39: the frame of `exec`, with `CRC` kept by the three operations, and the frame of the emit step, with `PIN`
kept by all but the payload step that takes from it. -/
theorem framerFrame : Obligations.FramerFrame := by
  refine ⟨fun s t i hi h => ?_, fun s t f hf h => ?_⟩
  · have hcrc : t.crc = s.crc := by
      obtain rfl | rfl := exec_cases h
      · obtain ⟨op, d, rfl⟩ | ⟨op, v, rfl⟩ | ⟨op, n, rfl⟩ := hi <;> exact effectOf_crc (by simp) (by simp) s
      · rfl
    obtain ⟨c, fr, qs, rfl⟩ := exec_frame h
    exact ⟨hcrc, rfl, rfl, rfl, rfl, rfl, rfl, rfl, fun _ _ => rfl, qs, rfl⟩
  · obtain ⟨-, rfl⟩ | ⟨-, he⟩ := blockStep_busy_cases hf h
    · exact ⟨rfl, rfl, rfl, rfl, rfl, rfl, rfl, fun _ _ => rfl, .inr rfl⟩
    · have hpin := or_iff_not_imp_left.2 fun hn => emitStep_pin hn he
      obtain ⟨fr, p, o, rfl⟩ := emitStep_frame he
      exact ⟨rfl, rfl, rfl, rfl, rfl, rfl, rfl, fun _ _ => rfl, hpin⟩

end Sys2Proof.Machine
end

section
/-! SUPPORT. What every step keeps, whoever moves: the frame of each kind of move, the frame in progress with the bytes it has
put on `OUT`, and the invariant of the block (10_state.md R22, 42_framer.md R113). -/

namespace Sys2Proof.Machine

/-! ### Runs -/

/-- What every step keeps holds at the end of every run. -/
theorem runSteps_preserves {P : State → Prop} (hstep : ∀ s t, P s → step s = .next t → P t) {s t : State} {k : Nat}
    (h : P s) (ht : runSteps k s = .next t) : P t := by
  induction k generalizing s with
  | zero =>
    cases ht
    exact h
  | succ k ih =>
    rw [runSteps_succ] at ht
    cases hs : step s with
    | next u =>
      rw [hs] at ht
      exact ih (hstep s u h hs) ht
    | fault r =>
      rw [hs] at ht
      cases ht
    | refused r =>
      rw [hs] at ht
      cases ht

/-! ### The frame of each kind of move -/

/-- A move of the environment other than of `RESET` writes only what is the host's and the sink's (R38). -/
theorem environment_frame (s : State) (e : EnvEvent) :
    (∃ l, e = .reset l) ∨ ∃ cmd pin ready, s.environment e = { s with cmd := cmd, pin := pin, sinkReady := ready } := by
  cases e with
  | reset l => exact .inl ⟨l, rfl⟩
  | block | present | withdrawCmd | offer | withdrawPin | sink => exact .inr ⟨_, _, _, rfl⟩

/-- Releasing `RESET` where it is released changes nothing. -/
theorem State.driveReset_released {s : State} (hr : s.resetPin = false) : s.driveReset false = s := by
  simp [State.driveReset, hr]

/-- Asserting `RESET` splits the history (R142; log 6). -/
theorem State.driveReset_asserted {s : State} (hr : s.resetPin = false) :
    s.driveReset true = { s with
      resetPin := true, crc := crcSeed, fr := .idle, rsp := [], out := [], past := s.past ++ [s.observation] } := by
  simp [State.driveReset, hr, State.observation]

/-- While `RESET` is asserted, driving it keeps the reset values (R140; log 5). -/
theorem State.driveReset_of_asserted {s : State} (hr : s.resetPin = true) (l : Bool) :
    s.driveReset l = { s with resetPin := l, crc := crcSeed, fr := .idle } := by
  simp [State.driveReset, hr]

/-- Driving `RESET` leaves the tables, and what is the host's and the sink's, as they are (R141; log 7). -/
theorem State.driveReset_frame (s : State) (l : Bool) : ∃ r c fr rsp out past,
    s.driveReset l = { s with resetPin := r, crc := c, fr := fr, rsp := rsp, out := out, past := past } := by
  unfold State.driveReset
  split <;> exact ⟨_, _, _, _, _, _, rfl⟩

/-- Releasing `RESET` writes at most the block's reset values. -/
theorem State.driveReset_false_frame (s : State) :
    ∃ c fr, s.driveReset false = { s with resetPin := false, crc := c, fr := fr } ∧ (fr = s.fr ∨ fr = .idle) := by
  obtain hr | hr := Bool.eq_false_or_eq_true s.resetPin
  · exact ⟨_, _, State.driveReset_of_asserted hr false, .inr rfl⟩
  · refine ⟨s.crc, s.fr, ?_, .inl rfl⟩
    rw [State.driveReset_released hr, ← hr]

/-- Short of asserting `RESET`, the environment does not touch what has been observed. -/
theorem environment_observation (s : State) {e : EnvEvent} (he : e ≠ .reset true) :
    (s.environment e).observation = s.observation := by
  obtain ⟨l, rfl⟩ | ⟨cmd, pin, ready, h⟩ := environment_frame s e
  · obtain rfl : l = false := by simpa using he
    obtain ⟨c, fr, h, -⟩ := s.driveReset_false_frame
    rw [State.environment, h]
    rfl
  · rw [h]
    rfl

/-- The environment leaves the rest of the schedule as it is. -/
theorem environment_env (s : State) (e : EnvEvent) : (s.environment e).env = s.env := by
  obtain ⟨l, rfl⟩ | ⟨cmd, pin, ready, h⟩ := environment_frame s e
  · obtain ⟨_, _, _, _, _, _, h⟩ := s.driveReset_frame l
    rw [State.environment, h]
  · rw [h]

/-- The block's turn writes neither the configuration, `RESET`, the sink nor the schedule, and puts no history aside. -/
theorem blockStep_frame {s t : State} (h : blockStep s = .next t) :
    ∃ c fr cmd pin rsp out, t = { s with crc := c, fr := fr, cmd := cmd, pin := pin, rsp := rsp, out := out } := by
  obtain rfl | ⟨ha, w, rest, -, hw⟩ | ⟨-, f, -, he⟩ := blockStep_cases h
  · exact ⟨_, _, _, _, _, _, rfl⟩
  · obtain ⟨c, fr, q, hframe⟩ := acceptWord_frame (s := { s with cmd := rest }) ha w
    cases hw.symm.trans hframe
    exact ⟨_, _, _, _, _, _, rfl⟩
  · obtain ⟨fr, p, o, rfl⟩ := emitStep_frame he
    exact ⟨_, _, _, _, _, _, rfl⟩

/-- The block's turn only adds to the history `OUT` (R15). -/
theorem blockStep_out_prefix {s t : State} (h : blockStep s = .next t) : s.out <+: t.out := by
  obtain rfl | ⟨ha, w, rest, -, hw⟩ | ⟨-, f, -, he⟩ := blockStep_cases h
  · exact List.prefix_rfl
  · obtain ⟨c, fr, q, hframe⟩ := acceptWord_frame (s := { s with cmd := rest }) ha w
    cases hw.symm.trans hframe
    exact List.prefix_rfl
  · obtain rfl | ⟨-, b, hb⟩ := emitStep_out he
    · exact List.prefix_rfl
    · exact ⟨[b], hb.symm⟩

/-- A step uses up at most the first entry of the schedule (log 2). -/
theorem step_env_suffix {s t : State} (h : step s = .next t) : t.env <:+ s.env := by
  obtain ⟨es, henv, hb⟩ | ⟨e, es, henv, -, rfl⟩ := step_cases h
  · obtain ⟨_, _, _, _, _, _, rfl⟩ := blockStep_frame hb
    obtain ⟨h0, rfl⟩ | henv := henv
    · exact List.nil_suffix
    · rw [henv]
      exact List.suffix_cons _ _
  · rw [environment_env, henv]
    exact List.suffix_cons _ _

/-- Short of asserting `RESET`, a step only adds to the history `OUT`. -/
theorem step_out_prefix {s t : State} (hne : ∀ e ∈ s.env, e ≠ .reset true) (h : step s = .next t) : s.out <+: t.out := by
  obtain ⟨es, -, hb⟩ | ⟨e, es, henv, -, rfl⟩ := step_cases h
  · exact blockStep_out_prefix (s := { s with env := es }) hb
  · have hout : (State.environment { s with env := es } e).out = s.out :=
      congrArg Observation.out (environment_observation _ (hne e (henv ▸ List.mem_cons_self)))
    rw [hout]

/-! ### The frame in progress on `OUT` -/

/-- The frame `f` is in progress with its invariant, and what it has emitted stands on `OUT` behind `base`. -/
structure State.Emits (s : State) (f : Frame) (sofar base : List Byte) : Prop where
  fr : s.fr = .busy f
  inv : f.Inv s.cfg sofar
  out : s.out = base ++ f.emitted sofar

/-- After a turn of the block the frame goes on with the same command, or it stands whole on `OUT` (R108, R146). -/
theorem State.Emits.blockStep {s t : State} {f : Frame} {sofar base : List Byte} (h : s.Emits f sofar base)
    (ht : blockStep s = .next t) :
    (∃ g more, t.Emits g (sofar ++ more) base ∧ g.SameCommand f) ∨
      (t.fr = .idle ∧ f.IsPayload sofar ∧ t.out = base ++ frameBytes s.cfg f.opc sofar) := by
  obtain ⟨-, rfl⟩ | ⟨-, he⟩ := blockStep_busy_cases h.fr ht
  · exact .inl ⟨f, [], (List.append_nil sofar).symm ▸ h, .refl f⟩
  · obtain ⟨g, more, hg, hsame, hinv, hout⟩ | hdone := h.inv.emitStep_emitted h.fr h.out he
    · exact .inl ⟨g, more, ⟨hg, blockStep_cfg ht ▸ hinv, hout⟩, hsame⟩
    · exact .inr hdone

/-- So it does after any step short of asserting `RESET`, which stays released (R146 to R148). -/
theorem State.Emits.step {s t : State} {f : Frame} {sofar base : List Byte} (h : s.Emits f sofar base)
    (hr : s.resetPin = false) (hne : ∀ e ∈ s.env, e ≠ .reset true) (ht : step s = .next t) :
    (t.resetPin = false ∧ ∃ g more, t.Emits g (sofar ++ more) base ∧ g.SameCommand f) ∨
      (f.IsPayload sofar ∧ t.out = base ++ frameBytes s.cfg f.opc sofar) := by
  obtain ⟨es, -, hb⟩ | ⟨e, es, henv, -, rfl⟩ := step_cases ht
  · obtain hgoes | ⟨-, hpay, hout⟩ := State.Emits.blockStep (s := { s with env := es }) ⟨h.fr, h.inv, h.out⟩ hb
    · obtain ⟨_, _, _, _, _, _, rfl⟩ := blockStep_frame hb
      exact .inl ⟨hr, hgoes⟩
    · exact .inr ⟨hpay, hout⟩
  · have he : e ≠ .reset true := hne e (henv ▸ List.mem_cons_self)
    refine .inl ?_
    obtain ⟨l, rfl⟩ | ⟨cmd, pin, ready, hmove⟩ := environment_frame { s with env := es } e
    · obtain rfl : l = false := by simpa using he
      have hmove : State.environment { s with env := es } (.reset false) = { s with env := es } :=
        State.driveReset_released hr
      rw [hmove]
      exact ⟨hr, f, [], ⟨h.fr, (List.append_nil sofar).symm ▸ h.inv, (List.append_nil sofar).symm ▸ h.out⟩, .refl f⟩
    · rw [hmove]
      exact ⟨hr, f, [], ⟨h.fr, (List.append_nil sofar).symm ▸ h.inv, (List.append_nil sofar).symm ▸ h.out⟩, .refl f⟩

/-- The history has a part of one frame from its start behind `base`, the frame being in progress, or it has such a frame
whole and goes on behind it. The command of the frame is that of `f`, its payload begins with `sofar`, and no reset is to
come. -/
structure OneFrame (c : Config) (f : Frame) (sofar base : List Byte) (s : State) : Prop where
  cfg : s.cfg = c
  env : ∀ e ∈ s.env, e ≠ .reset true
  frame : (s.resetPin = false ∧ ∃ g more, s.Emits g (sofar ++ more) base ∧ g.SameCommand f) ∨
    ∃ p, sofar <+: p ∧ f.IsPayload p ∧ base ++ frameBytes c f.opc p <+: s.out

theorem OneFrame.step {c : Config} {f : Frame} {sofar base : List Byte} {s t : State} (h : OneFrame c f sofar base s)
    (ht : step s = .next t) : OneFrame c f sofar base t := by
  obtain ⟨rfl, hne, hframe⟩ := h
  refine ⟨step_cfg ht, fun e he => hne e ((step_env_suffix ht).subset he), ?_⟩
  obtain ⟨hr, g, more, hg, hsame⟩ | ⟨p, hp, hpay, hout⟩ := hframe
  · obtain ⟨hr', g', more', hg', hsame'⟩ | ⟨hpay, hout⟩ := hg.step hr hne ht
    · rw [List.append_assoc] at hg'
      exact .inl ⟨hr', g', _, hg', hsame'.trans hsame⟩
    · refine .inr ⟨_, List.prefix_append _ _, hsame.isPayload hpay, ?_⟩
      rw [hout, hsame.1]
  · exact .inr ⟨p, hp, hpay, hout.trans (step_out_prefix hne ht)⟩

/-! ### The invariant of the block -/

/-- `OUT` is whole frames, and in `Busy` then what the frame in progress has emitted (R22, R113). -/
def State.History (s : State) : Prop :=
  ∃ fs, Framable fs ∧
    ((s.fr = .idle ∧ s.out = framesBytes s.cfg fs) ∨ ∃ f sofar, s.Emits f sofar (framesBytes s.cfg fs))

theorem State.Inv.history_holds {s : State} (h : s.Inv) : s.History := by
  obtain ⟨fs, hfs, hout⟩ := h.history
  refine ⟨fs, hfs, ?_⟩
  cases hf : s.fr with
  | idle =>
    rw [hf] at hout
    exact .inl ⟨rfl, hout⟩
  | busy f =>
    rw [hf] at hout
    obtain ⟨sofar, hinv, hout⟩ := hout
    exact .inr ⟨f, sofar, hf, hinv, hout⟩

theorem State.History.inv {s : State} (h : s.History)
    (hreset : s.resetPin = true → s.crc = crcSeed ∧ s.fr = .idle ∧ s.rsp = [] ∧ s.out = [])
    (hrsp : ∀ q ∈ s.rsp, responseValid q = true)
    (hpast : ∀ o ∈ s.past, CutHistory s.cfg o.out ∧ ∀ q ∈ o.rsp, responseValid q = true) : s.Inv := by
  refine ⟨hreset, ?_, hrsp, hpast⟩
  obtain ⟨fs, hfs, ⟨hf, hout⟩ | ⟨f, sofar, hf, hinv, hout⟩⟩ := h
  · refine ⟨fs, hfs, ?_⟩
    rw [hf]
    exact hout
  · refine ⟨fs, hfs, ?_⟩
    rw [hf]
    exact ⟨sofar, hinv, hout⟩

/-- The invariant does not speak of the host, the sink and the schedule. -/
theorem State.Inv.withHost {s : State} (h : s.Inv) (cmd : List CommandWord) (pin : List Byte) (ready : Bool)
    (es : List EnvEvent) : { s with cmd := cmd, pin := pin, sinkReady := ready, env := es }.Inv :=
  ⟨h.in_reset, h.history, h.responses, h.earlier⟩

/-- Wherever a reset splits the history, at most its last frame is cut short (R142). -/
theorem State.History.cutHistory {s : State} (h : s.History) : CutHistory s.cfg s.out := by
  obtain ⟨fs, hfs, ⟨-, hout⟩ | ⟨f, sofar, -, hinv, hout⟩⟩ := h
  · exact ⟨fs, 0, [], [], hfs, Nat.zero_le _, by rw [hout, List.append_nil], List.nil_prefix, by decide⟩
  · obtain ⟨p, hp, hlen, -⟩ := hinv.exists_isPayload
    have hcount := hinv.length_emitted
    have hleft := f.stepsLeft_pos
    refine ⟨fs, f.opc, p, f.emitted sofar, hfs, hlen.trans_le hinv.len_le, hout, hinv.emitted_isPrefix hp hlen, ?_⟩
    simp only [frameOverhead]
    omega

/-- A response word is one the block can produce when its status is `OK` or its value is 0 (R56). -/
theorem responseValid_responseWord {st : Status} {v : Byte} (h : st = .ok ∨ v = 0x00) :
    responseValid (responseWord st v) = true := by
  rw [responseValid, highByte_responseWord, lowByte_responseWord]
  cases st with
  | ok => rfl
  | rejIllegal | rejTooLong =>
    obtain rfl : v = 0x00 := h.resolve_left nofun
    rfl

theorem acceptWord_responseValid {s t : State} {w : CommandWord} (ha : s.canAccept = true)
    (ht : acceptWord w s = .next t) : ∃ q, t.rsp = s.rsp ++ [q] ∧ responseValid q = true := by
  obtain ⟨t', v, hacc, hrsp, hrej⟩ := acceptWord_wordStatus ha w
  cases ht.symm.trans hacc
  by_cases hok : wordStatus w = .ok
  · exact ⟨_, hrsp, responseValid_responseWord (.inl hok)⟩
  · exact ⟨_, congrArg State.rsp (hrej hok), responseValid_responseWord (.inr rfl)⟩

/-- An operation leaves the framer as it is, or with a frame that has its invariant and has emitted nothing (R103). The
payload that the host would owe makes the operation a transaction. -/
theorem effectOf_fr (i : Instr) (s : State) :
    (effectOf i s).fr = s.fr ∨ ∃ f, (effectOf i s).fr = .busy f ∧ f.Inv s.cfg [] ∧ f.emitted [] = [] := by
  have hwf : Transaction.wf ⟨i, List.replicate i.owed 0⟩ = true := beq_iff_eq.2 List.length_replicate
  cases hfr : acceptedFrame ⟨i, List.replicate i.owed 0⟩ with
  | none =>
    obtain ⟨-, -, -, hkeeps⟩ := accept_of_no_frame hwf hfr
    exact .inl (hkeeps s)
  | some frame =>
    obtain ⟨⟨f, hstarts, -⟩, -⟩ := starts_of_acceptedFrame hwf hfr
    exact .inr ⟨f, congrArg State.fr (hstarts.effect s), (hstarts.fed s.cfg []).inv, hstarts.emitted⟩

theorem acceptWord_fr {s t : State} {w : CommandWord} (ha : s.canAccept = true) (ht : acceptWord w s = .next t) :
    t.fr = s.fr ∨ ∃ f, t.fr = .busy f ∧ f.Inv s.cfg [] ∧ f.emitted [] = [] := by
  rw [acceptWord_of_canAccept ha] at ht
  cases hw : decode w with
  | illegal why =>
    rw [hw] at ht
    cases ht
    exact .inl rfl
  | op i =>
    rw [hw] at ht
    cases ht
    exact effectOf_fr i s

/-- The block's turn keeps the invariant: an accept step starts a frame, a `TAIL` step adds a whole one (R22, R113). -/
theorem State.Inv.blockStep {s t : State} (h : s.Inv) (ht : blockStep s = .next t) : t.Inv := by
  obtain rfl | ⟨ha, w, rest, -, hw⟩ | ⟨hr, f, hf, he⟩ := blockStep_cases ht
  · exact h
  · obtain ⟨hr, hidle⟩ := (State.canAccept_iff s).1 ha
    obtain ⟨q', hrsp, hvalid⟩ := acceptWord_responseValid (s := { s with cmd := rest }) ha hw
    have hfr := acceptWord_fr (s := { s with cmd := rest }) ha hw
    obtain ⟨c, fr, q, hframe⟩ := acceptWord_frame (s := { s with cmd := rest }) ha w
    cases hw.symm.trans hframe
    refine State.History.inv ?_ (fun hasserted => ?_) ?_ h.earlier
    · obtain ⟨fs, hfs, ⟨-, hout⟩ | ⟨f, sofar, hbusy, -⟩⟩ := h.history_holds
      · obtain hfr | ⟨f, hfr, hinv, hnone⟩ := hfr
        · exact ⟨fs, hfs, .inl ⟨hfr.trans hidle, hout⟩⟩
        · exact ⟨fs, hfs, .inr ⟨f, [], hfr, hinv, by rw [hnone, List.append_nil]; exact hout⟩⟩
      · cases hidle.symm.trans hbusy
    · cases hr.symm.trans hasserted
    · rw [hrsp]
      exact List.forall_mem_append.2 ⟨h.responses, List.forall_mem_singleton.2 hvalid⟩
  · obtain ⟨fs, hfs, ⟨hidle, -⟩ | ⟨g, sofar, hg⟩⟩ := h.history_holds
    · cases hf.symm.trans hidle
    · have hcases := hg.blockStep ht
      obtain ⟨fr, p, o, rfl⟩ := emitStep_frame he
      refine State.History.inv ?_ (fun hasserted => ?_) h.responses h.earlier
      · obtain ⟨e, more, he', -⟩ | ⟨hidle, hpay, hout⟩ := hcases
        · exact ⟨fs, hfs, .inr ⟨e, _, he'⟩⟩
        · refine ⟨fs ++ [(g.opc, sofar)], ?_, .inl ⟨hidle, ?_⟩⟩
          · exact List.forall_mem_append.2 ⟨hfs, List.forall_mem_singleton.2 (hpay.1.trans_le hg.inv.len_le)⟩
          · rw [hout, framesBytes_append]
            simp [framesBytes]
      · cases hr.symm.trans hasserted

/-- Driving `RESET` keeps the invariant: asserting it puts aside a history that is cut at most in its last frame (R140, R142;
logs 5 and 6). -/
theorem State.Inv.driveReset {s : State} (h : s.Inv) (l : Bool) : (s.driveReset l).Inv := by
  obtain hr | hr := Bool.eq_false_or_eq_true s.resetPin
  · obtain ⟨-, -, hrsp, hout⟩ := h.in_reset hr
    rw [State.driveReset_of_asserted hr]
    exact State.History.inv ⟨[], nofun, .inl ⟨rfl, hout⟩⟩ (fun _ => ⟨rfl, rfl, hrsp, hout⟩) h.responses h.earlier
  · cases l with
    | false => rwa [State.driveReset_released hr]
    | true =>
      rw [State.driveReset_asserted hr]
      refine State.History.inv ⟨[], nofun, .inl ⟨rfl, rfl⟩⟩ (fun _ => ⟨rfl, rfl, rfl, rfl⟩) nofun ?_
      exact List.forall_mem_append.2
        ⟨h.earlier, List.forall_mem_singleton.2 ⟨h.history_holds.cutHistory, h.responses⟩⟩

theorem State.Inv.step {s t : State} (h : s.Inv) (ht : step s = .next t) : t.Inv := by
  obtain ⟨es, -, hb⟩ | ⟨e, es, -, -, rfl⟩ := step_cases ht
  · exact (h.withHost s.cmd s.pin s.sinkReady es).blockStep hb
  · obtain ⟨l, rfl⟩ | ⟨cmd, pin, ready, hmove⟩ := environment_frame { s with env := es } e
    · exact (h.withHost s.cmd s.pin s.sinkReady es).driveReset l
    · rw [hmove]
      exact h.withHost cmd pin ready es

end Sys2Proof.Machine
end

section
/-! The statements on what every step keeps: the invariant of the block (10_state.md R22, 42_framer.md R113), and one frame on
`OUT` under every schedule (R108, R146 to R148); and those on the moves of the environment (R38, R142). -/

namespace Sys2Proof.Machine

/-- Settles O57: the moves of the host and the sink do not touch the invariant; `RESET` and the block's turn keep it. -/
theorem invariantIsKept : Obligations.InvariantIsKept :=
  fun _ _ hinv ht => hinv.step ht

/-- Settles O58: the reset state is idle, with empty histories. -/
theorem resetHasInvariant : Obligations.ResetHasInvariant :=
  State.History.inv ⟨[], nofun, .inl ⟨rfl, rfl⟩⟩ nofun nofun nofun

/-- Settles O47: every step keeps the history in the form of `OneFrame`; a frame in progress is a part of each frame that its
payload can become. -/
theorem frameIsOneFrameUnderEverySchedule : Obligations.FrameIsOneFrameUnderEverySchedule := by
  intro s t f sofar base k hf hinv hr hout hne ht
  have hstart : OneFrame s.cfg f sofar base s := by
    refine ⟨rfl, hne, .inl ⟨hr, f, [], ?_, .refl f⟩⟩
    rw [List.append_nil]
    exact ⟨hf, hinv, hout⟩
  obtain ⟨hcfg, -, ⟨-, g, more, hg, hsame⟩ | ⟨p, hp, hpay, hout'⟩⟩ := runSteps_preserves (fun _ _ h => h.step) hstart ht
  · obtain ⟨p, hp, hpay⟩ := hg.inv.exists_isPayload
    obtain ⟨hlen, harg⟩ := hsame.isPayload hpay
    refine ⟨p, (List.prefix_append _ _).trans hp, hlen, harg, .inl ?_⟩
    rw [hg.out, List.prefix_append_right_inj, ← hsame.1, ← hcfg]
    exact hg.inv.emitted_isPrefix hp hpay.1
  · exact ⟨p, hp, hpay.1, hpay.2, .inr hout'⟩

/-- Settles O55: the step is the move of the environment, whose equation says all of it. -/
theorem resetCutsFrameShort : Obligations.ResetCutsFrameShort := by
  intro s rest hr he
  refine ⟨_, (step_environment he nofun).trans (congrArg _ (State.driveReset_asserted (s := { s with env := rest }) hr)), ?_⟩
  exact ⟨rfl, rfl, rfl, rfl, rfl, rfl, fun _ _ => rfl⟩

/-- Settles O60: a step of the schedule is the move it names, and `RESET` leaves the host and the sink alone. -/
theorem environmentMovesFrame : Obligations.EnvironmentMovesFrame := by
  refine fun s rest => ⟨fun w he => step_environment he nofun, fun he => step_environment he nofun,
    fun b he => step_environment he nofun, fun he => step_environment he nofun,
    fun ready he => step_environment he nofun, fun level he => ⟨_, step_environment he nofun, ?_⟩⟩
  obtain ⟨_, _, _, _, _, _, hmove⟩ := State.driveReset_frame { s with env := rest } level
  rw [State.environment, hmove]
  exact ⟨rfl, rfl, rfl, rfl⟩

end Sys2Proof.Machine
end

section
/-! SUPPORT. The words of a run that are still to come, step by step, and a run that is over (R153; logs 2, 4, 19). -/

namespace Sys2Proof.Machine

theorem presentedWord_eq_none_iff (e : EnvEvent) : e.presentedWord = none ↔ ∀ w, e ≠ .present w := by
  cases e <;> simp [EnvEvent.presentedWord]

/-- A run is over when nothing is presented, nothing is to be presented, and the framer is idle (R153). -/
theorem State.runIsOver_iff (s : State) :
    s.runIsOver = true ↔ s.cmd = [] ∧ (∀ w, .present w ∉ s.env) ∧ s.fr = .idle := by
  have hbusy : s.busy = false ↔ s.fr = .idle := by
    obtain hf | ⟨f, hf⟩ := s.fr.idle_or_busy <;> simp [State.busy, Framer.isBusy, hf]
  have henv : s.env.filterMap EnvEvent.presentedWord = [] ↔ ∀ w, .present w ∉ s.env := by
    simp only [List.filterMap_eq_nil_iff, presentedWord_eq_none_iff]
    exact ⟨fun h w hw => h _ hw w rfl, fun h e he w hw => h w (hw ▸ he)⟩
  simp only [State.runIsOver, State.wordsToCome, Bool.and_eq_true, List.isEmpty_iff, List.append_eq_nil_iff,
    Bool.not_eq_true', hbusy, henv, and_assoc]

/-- The block's turn answers the first of the words presented, or leaves words and responses as they are (R16). -/
theorem blockStep_words {s t : State} (h : blockStep s = .next t) :
    (t.cmd = s.cmd ∧ t.rsp = s.rsp) ∨ ∃ w q, s.cmd = w :: t.cmd ∧ t.rsp = s.rsp ++ [q] := by
  obtain rfl | ⟨ha, w, rest, hc, hw⟩ | ⟨-, f, -, he⟩ := blockStep_cases h
  · exact .inl ⟨rfl, rfl⟩
  · obtain ⟨c, fr, q, hframe⟩ := acceptWord_frame (s := { s with cmd := rest }) ha w
    cases hw.symm.trans hframe
    exact .inr ⟨w, q, hc, rfl⟩
  · obtain ⟨fr, p, o, rfl⟩ := emitStep_frame he
    exact .inl ⟨rfl, rfl⟩

/-- A move of the environment that withdraws no word leaves the words to come as they are: one that it presents was to come
before. -/
theorem environment_words (s : State) {e : EnvEvent} (he : e ≠ .withdrawCmd) :
    (s.environment e).cmd = s.cmd ++ e.presentedWord.toList := by
  cases e with
  | withdrawCmd => exact absurd rfl he
  | present w => rfl
  | block | offer | withdrawPin | sink => exact (List.append_nil _).symm
  | reset l =>
    obtain ⟨_, _, _, _, _, _, h⟩ := s.driveReset_frame l
    rw [State.environment, h]
    exact (List.append_nil _).symm

/-- Without a reset and without words withdrawn, a step leaves the words to come and the responses as they are, or it answers
the first of these words (R16, R153). -/
theorem step_words {s t : State} (hne : ∀ e ∈ s.env, e ≠ .reset true ∧ e ≠ .withdrawCmd) (h : step s = .next t) :
    (t.wordsToCome = s.wordsToCome ∧ t.rsp = s.rsp) ∨
      ∃ w q, s.wordsToCome = w :: t.wordsToCome ∧ t.rsp = s.rsp ++ [q] := by
  obtain ⟨es, henv, hb⟩ | ⟨e, es, henv, -, rfl⟩ := step_cases h
  · have hwords : s.env.filterMap EnvEvent.presentedWord = t.env.filterMap EnvEvent.presentedWord := by
      obtain ⟨_, _, _, _, _, _, rfl⟩ := blockStep_frame hb
      obtain ⟨h0, rfl⟩ | henv := henv
      · rw [h0]
      · rw [henv]
        rfl
    rw [State.wordsToCome, State.wordsToCome, hwords]
    obtain ⟨hc, hq⟩ | ⟨w, q, hc, hq⟩ := blockStep_words hb
    · exact .inl ⟨congrArg (· ++ _) hc, hq⟩
    · exact .inr ⟨w, q, congrArg (· ++ _) hc, hq⟩
  · obtain ⟨hreset, hwithdraw⟩ := hne e (henv ▸ List.mem_cons_self)
    refine .inl ⟨?_, congrArg Observation.rsp (environment_observation { s with env := es } hreset)⟩
    rw [State.wordsToCome, State.wordsToCome, environment_words _ hwithdraw, environment_env, henv]
    cases hw : e.presentedWord <;> simp [hw]

/-- The run so far has answered `n` words in all with those still to come, which are the last of `ws`; no reset and no
withdrawing is to come. -/
structure Answers (ws : List CommandWord) (n : Nat) (s : State) : Prop where
  env : ∀ e ∈ s.env, e ≠ .reset true ∧ e ≠ .withdrawCmd
  words : s.wordsToCome <:+ ws
  count : s.rsp.length + s.wordsToCome.length = n

theorem Answers.step {ws : List CommandWord} {n : Nat} {s t : State} (h : Answers ws n s) (ht : step s = .next t) :
    Answers ws n t := by
  obtain ⟨hne, hwords, hcount⟩ := h
  have hne' : ∀ e ∈ t.env, e ≠ .reset true ∧ e ≠ .withdrawCmd := fun e he => hne e ((step_env_suffix ht).subset he)
  obtain ⟨hw, hq⟩ | ⟨w, q, hw, hq⟩ := step_words hne ht
  · exact ⟨hne', hw ▸ hwords, by rw [hw, hq, hcount]⟩
  · rw [hw] at hwords hcount
    refine ⟨hne', (List.suffix_cons _ _).trans hwords, ?_⟩
    rw [← hcount, hq, List.length_append, List.length_singleton, List.length_cons]
    omega

/-- The run is over with the observation `o`, and no reset is to come. -/
structure Over (o : Observation) (s : State) : Prop where
  env : ∀ e ∈ s.env, e ≠ .reset true
  isOver : s.runIsOver = true
  observation : s.observation = o

/-- A run that is over stays so: the block has no word to accept, and the environment none to present (R153). -/
theorem Over.step {o : Observation} {s t : State} (h : Over o s) (ht : step s = .next t) : Over o t := by
  obtain ⟨hne, hover, rfl⟩ := h
  obtain ⟨hcmd, hpresent, hidle⟩ := s.runIsOver_iff.1 hover
  have hsub := (step_env_suffix ht).subset
  have hpresent' : ∀ w, .present w ∉ t.env := fun w hw => hpresent w (hsub hw)
  have hne' : ∀ e ∈ t.env, e ≠ .reset true := fun e he => hne e (hsub he)
  obtain ⟨es, -, hb⟩ | ⟨e, es, henv, -, rfl⟩ := step_cases ht
  · rw [blockStep_idle_nil (s := { s with env := es }) hidle hcmd] at hb
    cases hb
    exact ⟨hne', (State.runIsOver_iff _).2 ⟨hcmd, hpresent', hidle⟩, rfl⟩
  · have he : e ∈ s.env := henv ▸ List.mem_cons_self
    refine ⟨hne', (State.runIsOver_iff _).2 ⟨?_, hpresent', ?_⟩, environment_observation { s with env := es } (hne e he)⟩
    · by_cases hwithdraw : e = .withdrawCmd
      · rw [hwithdraw]
        rfl
      · have hnone : e.presentedWord = none :=
          (presentedWord_eq_none_iff e).2 fun w hw => hpresent w (hw ▸ he)
        rw [environment_words _ hwithdraw, hnone, hcmd]
        rfl
    · obtain ⟨l, rfl⟩ | ⟨cmd, pin, ready, hmove⟩ := environment_frame { s with env := es } e
      · obtain rfl : l = false := by simpa using hne _ he
        obtain ⟨c, fr, hmove, hfr⟩ := State.driveReset_false_frame { s with env := es }
        rw [State.environment, hmove]
        exact hfr.elim (·.trans hidle) id
      · rw [hmove]
        exact hidle

end Sys2Proof.Machine
end

section
/-! The statement of 70_reset_and_hazards.md on the end of a run (R153). -/

namespace Sys2Proof.Machine

/-- Settles O59: every step keeps the count of the words answered and still to come, and, once the run is over, that. -/
theorem runIsOverWhenEveryWordIsAnswered : Obligations.RunIsOverWhenEveryWordIsAnswered := by
  refine ⟨State.runIsOver_iff, fun s t k hne ht => ?_, fun s t k hover hne ht => ?_⟩
  · obtain ⟨-, hwords, hcount⟩ := runSteps_preserves (P := Answers s.wordsToCome (s.rsp.length + s.wordsToCome.length))
      (fun _ _ h => h.step) ⟨hne, List.suffix_rfl, rfl⟩ ht
    refine ⟨hwords, hcount, fun hover => ?_⟩
    obtain ⟨hnone, -⟩ := Bool.and_eq_true_iff.1 hover
    rw [← hcount, List.isEmpty_iff.1 hnone]
    rfl
  · obtain ⟨-, hover', hobs⟩ := runSteps_preserves (P := Over s.observation) (fun _ _ h => h.step) ⟨hne, hover, rfl⟩ ht
    exact ⟨hobs, hover'⟩

end Sys2Proof.Machine
end

section
/-! SUPPORT. The D1 table as the generator of R78 leaves it, which makes a table lookup linear, and what follows for the
checksum under D1 (40_crc.md R78 to R82; log 1). Then the words of the CRC unit in a run (R77). -/

namespace Sys2Proof.Machine

/-! ### The generator -/

/-- A table whose rows of sixteen entries are the values of `g` holds the value of `g` at every index. -/
theorem getElem?_of_rows {table : List Byte} {g : Byte → Byte}
    (h : ∀ k < 16, (table.drop (16 * k)).take 16 = (List.range 16).map fun j => g (BitVec.ofNat 8 (16 * k + j)))
    (b : Byte) : table[b.toNat]? = some (g b) := by
  have hj : b.toNat % 16 < 16 := Nat.mod_lt _ (by decide)
  have hrow := congrArg (·[b.toNat % 16]?) (h (b.toNat / 16) (by omega))
  simpa [hj, Nat.div_add_mod] using hrow

theorem crcTableD1Rows_getElem? (b : Byte) : crcTableD1Rows[b.toNat]? = some (crcGenerator b) :=
  getElem?_of_rows (by decide) b

/-- The D1 table holds what the generator leaves at every index (R78). -/
theorem memRead_crc_d1 (b : Byte) : memRead Config.d1 .crc b = crcGenerator b := by
  have hget : some (memRead Config.d1 .crc b) = crcTableD1Rows[b.toNat]? := by
    simp only [memRead, Config.d1, crcTableD1, Vector.get_eq_getElem, Vector.getElem_mk, List.getElem_toArray]
    exact (List.getElem?_eq_getElem _).symm
  exact Option.some.inj (hget.trans (crcTableD1Rows_getElem? b))

theorem xor_xor_xor_comm (a b c d : Byte) : (a ^^^ b) ^^^ (c ^^^ d) = (a ^^^ c) ^^^ (b ^^^ d) := by ac_rfl

/-- What a turn of the generator takes in when this is the top bit: the polynomial, or nothing (R78). -/
def crcTaken (top : Bool) : Byte := if top then 0x07 else 0x00

theorem crcTaken_xor : ∀ a b : Bool, crcTaken (a ^^ b) = crcTaken a ^^^ crcTaken b := by decide

theorem crcShift_eq (c : Byte) : crcShift c = c <<< (1 : Nat) ^^^ crcTaken (c.getLsbD 7) := by
  unfold crcShift crcTaken
  split
  · rfl
  · exact BitVec.xor_zero.symm

/-- One turn of the generator is linear: the shift is, and so is what the top bit takes in. -/
theorem crcShift_xor (a b : Byte) : crcShift (a ^^^ b) = crcShift a ^^^ crcShift b := by
  have hshift : (a ^^^ b) <<< 1 = a <<< 1 ^^^ b <<< 1 := BitVec.shiftLeft_xor_distrib a b 1
  rw [crcShift_eq, crcShift_eq, crcShift_eq, BitVec.getLsbD_xor, crcTaken_xor, hshift, xor_xor_xor_comm]

theorem crcGenerator_xor (a b : Byte) : crcGenerator (a ^^^ b) = crcGenerator a ^^^ crcGenerator b := by
  unfold crcGenerator
  induction List.range 8 generalizing a b with
  | nil => rfl
  | cons _ ns ih =>
    simp only [List.foldl_cons]
    rw [crcShift_xor, ih]

/-! ### The checksum under D1 -/

/-- Under D1 one step of the checksum is linear in both arguments together (R81(c)). -/
theorem crcStep_d1_xor (s t a b : Byte) :
    crcStep Config.d1 (s ^^^ t) (a ^^^ b) = crcStep Config.d1 s a ^^^ crcStep Config.d1 t b := by
  simp only [crcStep, memRead_crc_d1]
  rw [xor_xor_xor_comm, crcGenerator_xor]

theorem checksumFrom_d1_xor {p q : List Byte} (h : p.length = q.length) (s t : Byte) :
    checksumFrom Config.d1 (s ^^^ t) (List.zipWith (fun a b => a ^^^ b) p q) =
      checksumFrom Config.d1 s p ^^^ checksumFrom Config.d1 t q := by
  induction p generalizing q s t with
  | nil =>
    obtain rfl : q = [] := List.length_eq_zero_iff.1 h.symm
    rfl
  | cons a p ih =>
    obtain ⟨b, q, rfl⟩ : ∃ b q', q = b :: q' := List.exists_cons_of_length_eq_add_one h.symm
    simp only [checksumFrom, List.zipWith_cons_cons, List.foldl_cons]
    rw [crcStep_d1_xor]
    exact ih (Nat.succ.inj h) _ _

/-- The generator leaves 0 for no index but 0, so by linearity it is one-to-one (R81(b)). -/
theorem crcGenerator_bijective : Function.Bijective crcGenerator := by
  have hkernel : ∀ b : Byte, crcGenerator b = 0 → b = 0 := by decide
  refine Finite.injective_iff_bijective.1 fun a b h => ?_
  rw [← BitVec.xor_eq_zero_iff]
  apply hkernel
  rw [crcGenerator_xor, h, BitVec.xor_self]
  rfl

theorem xor_right_bijective (b : Byte) : Function.Bijective (fun s => s ^^^ b) := by
  refine Function.Involutive.bijective fun s => ?_
  rw [BitVec.xor_assoc, BitVec.xor_self, BitVec.xor_zero]

theorem crcStep_d1_bijective_left (b : Byte) : Function.Bijective (fun s => crcStep Config.d1 s b) := by
  simp only [crcStep, memRead_crc_d1]
  exact crcGenerator_bijective.comp (xor_right_bijective b)

theorem crcStep_comm (c : Config) (s b : Byte) : crcStep c s b = crcStep c b s := by
  rw [crcStep, BitVec.xor_comm]
  rfl

theorem crcStep_d1_bijective_right (s : Byte) : Function.Bijective (fun b => crcStep Config.d1 s b) := by
  simp only [crcStep_comm _ s]
  exact crcStep_d1_bijective_left s

/-- Under D1 checksums that differ go on differing over the same bytes (R81(b)). -/
theorem checksumFrom_d1_injective (bs : List Byte) : Function.Injective (fun s => checksumFrom Config.d1 s bs) := by
  induction bs with
  | nil => exact Function.injective_id
  | cons b bs ih => exact ih.comp (crcStep_d1_bijective_left b).injective

theorem checksum_append_cons (c : Config) (u v : List Byte) (a : Byte) :
    checksum c (u ++ a :: v) = checksumFrom c (crcStep c (checksum c u) a) v := by
  simp [checksum, checksumFrom]

/-- Under D1 two bytes may change places when the generator leaves their difference as it is (R82). -/
theorem checksum_d1_swap_iff (a b : Byte) :
    checksum Config.d1 [a, b] = checksum Config.d1 [b, a] ↔ crcGenerator (a ^^^ b) = a ^^^ b := by
  have hpair : ∀ a b : Byte, checksum Config.d1 [a, b] = crcGenerator (crcGenerator a ^^^ b) := by
    intro a b
    rw [checksum_pair, crcStep, memRead_crc_d1]
    exact congrArg (fun v => crcGenerator (v ^^^ b)) (memRead_crc_d1 a)
  rw [hpair, hpair, crcGenerator_bijective.injective.eq_iff, crcGenerator_xor, ← BitVec.xor_eq_zero_iff,
    xor_xor_xor_comm, BitVec.xor_comm b a, BitVec.xor_eq_zero_iff]

theorem checksumFrom_d1_replicate_zero (k : Nat) : checksumFrom Config.d1 0 (List.replicate k 0x00) = 0 := by
  induction k with
  | zero => rfl
  | succ k ih => exact ih

/-! ### `CHECKSUM` in a run -/

/-- A `CRC_UPD` per byte, word by word: each is one step, and continues the checksum in `CRC` (R75, R77). -/
theorem runSteps_crcUpds (bs : List Byte) {s : State} (ha : s.canAccept = true) (he : s.env = []) :
    runSteps bs.length { s with cmd := (bs.map Instr.crcUpd).map encode ++ s.cmd } = .next { s with
      crc := checksumFrom s.cfg s.crc bs, rsp := s.rsp ++ List.replicate bs.length 0x0000 } := by
  induction bs generalizing s with
  | nil => simp [checksumFrom]
  | cons b bs ih =>
    have hstep := step_encode (s := { s with cmd := (bs.map Instr.crcUpd).map encode ++ s.cmd }) ha he (.crcUpd b)
    have hrest := ih (s := { s with crc := crcStep s.cfg s.crc b, rsp := s.rsp ++ [0x0000] }) ha he
    rw [List.length_cons, List.replicate_succ, List.append_cons]
    exact (runSteps_succ_of_step hstep).trans hrest

end Sys2Proof.Machine
end

section
/-! The statements of 40_crc.md on `CHECKSUM` (R77) and on the laws of the checksum (R78 to R82). -/

namespace Sys2Proof.Machine

/-- Settles O22: the checksum of a checksum looks up index 0; under D1 that entry is 0, and the table is the generator's. -/
theorem checksumLaws : Obligations.ChecksumLaws := by
  have hself : ∀ (c : Config) (p : List Byte), checksum c (p ++ [checksum c p]) = c.crcTable.get 0 := by
    intro c p
    rw [checksum_append_singleton, crcStep, BitVec.xor_self]
    rfl
  refine ⟨hself, fun p k => ⟨hself Config.d1 p, ?_⟩, by decide, memRead_crc_d1, rfl, rfl⟩
  calc checksum Config.d1 (List.replicate k 0x00 ++ p)
      = checksumFrom Config.d1 (checksumFrom Config.d1 0 (List.replicate k 0x00)) p := checksumFrom_append ..
    _ = checksum Config.d1 p := by rw [checksumFrom_d1_replicate_zero]; rfl

/-- Settles O23: each step is linear, and the seed is 0. -/
theorem d1ChecksumIsLinear : Obligations.D1ChecksumIsLinear :=
  fun _ _ h => checksumFrom_d1_xor h 0 0

/-- Settles O24: a step is the generator after an exclusive-or, both bijections; the bytes behind the error keep it. -/
theorem d1OneByteErrorIsSeen : Obligations.D1OneByteErrorIsSeen := by
  refine ⟨crcStep_d1_bijective_left, crcStep_d1_bijective_right, fun u v a b hab h => hab ?_⟩
  rw [checksum_append_cons, checksum_append_cons] at h
  exact (crcStep_d1_bijective_right _).injective (checksumFrom_d1_injective v h)

/-- Settles O25: by linearity the two checksums agree when the table maps the difference of the bytes to itself. -/
theorem d1OrderSensitivity : Obligations.D1OrderSensitivity := by
  refine ⟨fun a c => ?_, by decide, by decide, by decide, by decide⟩
  rw [checksum_d1_swap_iff, ← memRead_crc_d1]
  exact crcTableD1_get_eq_iff _

/-- Settles O19: `CRC_CLR` loads the seed, the `CRC_UPD`s take the bytes, and `CRC_RD` answers what is in `CRC`. -/
theorem checksumSequenceComputesChecksum : Obligations.ChecksumSequenceComputesChecksum := by
  intro bs s ha he
  refine ⟨responseWord .ok (checksum s.cfg bs), highByte_responseWord .ok _, lowByte_responseWord .ok _, ?_⟩
  have hclr := step_encode (s := { s with cmd := (bs.map Instr.crcUpd).map encode ++ encode .crcRd :: s.cmd }) ha he .crcClr
  have hupds := runSteps_crcUpds bs (s := { s with
    cmd := encode .crcRd :: s.cmd, crc := crcSeed, rsp := s.rsp ++ [0x0000] }) ha he
  have hrd := step_encode (s := { s with
    crc := checksum s.cfg bs, rsp := s.rsp ++ [0x0000] ++ List.replicate bs.length 0x0000 }) ha he .crcRd
  have hwords : (checksumOps bs).map encode ++ s.cmd =
      encode .crcClr :: ((bs.map Instr.crcUpd).map encode ++ encode .crcRd :: s.cmd) := by simp [checksumOps]
  rw [hwords, runSteps_succ_of_step hclr]
  refine (runSteps_add (k := 1) hupds).trans ((runSteps_one _).trans (hrd.trans ?_))
  rw [List.replicate_succ]
  simp [effectOf]

end Sys2Proof.Machine
end

section
/-! SUPPORT. The mirror as the reversal of a bit vector (41_mirror.md R89). -/

namespace Sys2Proof.Machine

theorem rev8_involutive : Function.Involutive rev8 := by
  intro b
  rw [rev8_eq_reverse, rev8_eq_reverse, BitVec.reverse_reverse_eq]

theorem rev8_xor (a b : Byte) : rev8 (a ^^^ b) = rev8 a ^^^ rev8 b := by
  refine BitVec.eq_of_getLsbD_eq fun i hi => ?_
  simp only [getLsbD_rev8 _ hi, BitVec.getLsbD_xor]

theorem rev8_and (a b : Byte) : rev8 (a &&& b) = rev8 a &&& rev8 b := by
  refine BitVec.eq_of_getLsbD_eq fun i hi => ?_
  simp only [getLsbD_rev8 _ hi, BitVec.getLsbD_and]

theorem rev8_or (a b : Byte) : rev8 (a ||| b) = rev8 a ||| rev8 b := by
  refine BitVec.eq_of_getLsbD_eq fun i hi => ?_
  simp only [getLsbD_rev8 _ hi, BitVec.getLsbD_or]

/-- The mirror counts the same bits, from the other end. -/
theorem oneBits_rev8 (b : Byte) : oneBits (rev8 b) = oneBits b := by
  have hbits : (List.range 8).filter (fun i => (rev8 b).getLsbD i) = (List.range 8).filter (fun i => b.getLsbD (7 - i)) :=
    List.filter_congr fun i hi => getLsbD_rev8 b (List.mem_range.1 hi)
  have hends : (List.range 8).reverse = (List.range 8).map (7 - ·) := rfl
  rw [oneBits, oneBits, hbits]
  calc ((List.range 8).filter (fun i => b.getLsbD (7 - i))).length
      = (((List.range 8).map (7 - ·)).filter (fun i => b.getLsbD i)).length := by
        rw [List.filter_map, List.length_map]
        rfl
    _ = ((List.range 8).filter (fun i => b.getLsbD i)).length := by
        rw [← hends, List.filter_reverse, List.length_reverse]

end Sys2Proof.Machine
end

section
/-! The statement of 41_mirror.md on the laws of the mirror (R89). -/

namespace Sys2Proof.Machine

/-- Settles O29: bit `i` of the mirror is bit `7 - i`, so that the bitwise operations go through and twice is nothing. -/
theorem mirrorLaws : Obligations.MirrorLaws := by
  refine ⟨fun b => ⟨rev8_involutive b, oneBits_rev8 b⟩, rev8_involutive.bijective,
    fun a b => ⟨rev8_xor a b, rev8_and a b, rev8_or a b⟩, by decide, fun bs => ?_, by decide, by decide, by decide⟩
  rw [List.map_map, rev8_involutive.comp_self, List.map_id]

end Sys2Proof.Machine
end

section
/-! SUPPORT. The bytes of a frame read back (30_encoding.md R60, 42_framer.md R96, R112, R113). -/

namespace Sys2Proof.Machine

theorem toNat_ofNat_length {p : List Byte} (hp : p.length ≤ maxPayload) : (BitVec.ofNat 8 p.length).toNat = p.length := by
  simp only [maxPayload] at hp
  rw [BitVec.toNat_ofNat]
  exact Nat.mod_eq_of_lt (by omega)

theorem frameBytes_getElem?_payload (c : Config) (op : Byte) (p : List Byte) {i : Nat} (hi : i < p.length) :
    (frameBytes c op p)[6 + i]? = p[i]? := by
  have hheader : (headerBytes op (BitVec.ofNat 8 p.length) ++ p).length = 6 + p.length := List.length_append
  rw [frameBytes, List.getElem?_append_left (by omega), List.getElem?_append_right (by simp [headerBytes])]
  simp [headerBytes]

/-- The two bytes behind the payload are its checksum and `0xFF`. -/
theorem frameBytes_getElem?_end (c : Config) (op : Byte) (p : List Byte) (i : Nat) :
    (frameBytes c op p)[p.length + 6 + i]? = [checksum c p, etx][i]? := by
  have hheader : (headerBytes op (BitVec.ofNat 8 p.length) ++ p).length = p.length + 6 := by
    rw [List.length_append, Nat.add_comm]
    rfl
  rw [frameBytes, List.getElem?_append_right (by omega), hheader, Nat.add_sub_cancel_left]

/-- A frame is told from its opcode and its payload (R96). -/
theorem frameBytes_injective {c : Config} {op op' : Byte} {p p' : List Byte}
    (h : frameBytes c op' p' = frameBytes c op p) : op' = op ∧ p' = p := by
  have hlen : p'.length = p.length := by
    have := congrArg List.length h
    simpa only [length_frameBytes, Nat.add_right_cancel_iff] using this
  simp only [frameBytes, hlen, List.append_assoc] at h
  obtain ⟨hheader, hrest⟩ := List.append_inj h rfl
  exact ⟨by simpa [headerBytes] using hheader, (List.append_inj hrest hlen).1⟩

/-! ### The well-formed frame -/

/-- A list of eight bytes or more, as six, those in the middle, and two. -/
theorem exists_header_middle_end {f : List Byte} (h : 8 ≤ f.length) :
    ∃ a0 a1 a2 a3 a4 a5 x y p, f = [a0, a1, a2, a3, a4, a5] ++ p ++ [x, y] := by
  match f, h with
  | a0 :: a1 :: a2 :: a3 :: a4 :: a5 :: r, h =>
    simp only [List.length_cons] at h
    obtain ⟨x, y, hend⟩ : ∃ x y, r.drop (r.length - 2) = [x, y] := by
      rw [← List.length_eq_two, List.length_drop]
      omega
    refine ⟨a0, a1, a2, a3, a4, a5, x, y, r.take (r.length - 2), ?_⟩
    rw [← hend, List.append_assoc, List.take_append_drop]
    rfl

/-- `WellFormedFrame` of such a list, condition by condition (R112). -/
theorem wellFormedFrame_header_middle_end (c : Config) (a0 a1 a2 a3 a4 a5 x y : Byte) (p : List Byte) :
    wellFormedFrame c ([a0, a1, a2, a3, a4, a5] ++ p ++ [x, y]) = true ↔
      a0 = stx1 ∧ a1 = stx2 ∧ a5 = lenHigh ∧ a4.toNat ≤ maxPayload ∧ p.length = a4.toNat ∧ x = checksum c p ∧ y = etx ∧
        a3 = dirH2D := by
  have hlen : ([a0, a1, a2, a3, a4, a5] ++ p ++ [x, y]).length = p.length + 8 := by simp
  have hmiddle : (([a0, a1, a2, a3, a4, a5] ++ p ++ [x, y]).drop 6).take p.length = p := by simp
  have hx : ([a0, a1, a2, a3, a4, a5] ++ p ++ [x, y])[p.length + 8 - 2]? = some x := by simp
  have hy : ([a0, a1, a2, a3, a4, a5] ++ p ++ [x, y])[p.length + 8 - 1]? = some y := by simp
  simp only [wellFormedFrame, frameShaped, hlen, hx, hy, Nat.add_sub_cancel, hmiddle]
  simp [frameOverhead, and_assoc]

/-! ### The stream -/

/-- The length of the frame in front, told from its fifth and sixth bytes (R60). -/
theorem frontLength_frameBytes_append (c : Config) (op : Byte) {p : List Byte} (hp : p.length ≤ maxPayload)
    (rest : List Byte) : frontLength (frameBytes c op p ++ rest) = (frameBytes c op p).length := by
  have hlow : (frameBytes c op p ++ rest).getD 4 0 = BitVec.ofNat 8 p.length := rfl
  have hhigh : (frameBytes c op p ++ rest).getD 5 0 = lenHigh := rfl
  have hzero : lenHigh.toNat = 0 := rfl
  rw [frontLength, hlow, hhigh, toNat_ofNat_length hp, length_frameBytes, hzero, frameOverhead]
  omega

theorem cutFrames_of_ne_nil {bs : List Byte} (h : bs ≠ []) (fuel : Nat) :
    cutFrames (fuel + 1) bs = bs.take (frontLength bs) :: cutFrames fuel (bs.drop (frontLength bs)) := by
  obtain ⟨b, bs, rfl⟩ := List.exists_cons_of_ne_nil h
  rfl

end Sys2Proof.Machine
end

section
/-! The statements on the frame as bytes: its layout (R96), the well-formed frame (R112), and a stream of frames (R60, R113). -/

namespace Sys2Proof.Machine

/-- Settles O31: offset by offset, and by cutting equal frames at equal lengths. -/
theorem frameBytesLayout : Obligations.FrameBytesLayout := by
  intro c op p hp
  rw [length_frameBytes]
  refine ⟨rfl, by omega, by omega, rfl, rfl, rfl, rfl, ⟨_, rfl, toNat_ofNat_length hp⟩, rfl,
    fun i hi => frameBytes_getElem?_payload c op p hi, frameBytes_getElem?_end c op p 0, frameBytes_getElem?_end c op p 1,
    fun _ _ _ h => frameBytes_injective h⟩

/-- Settles O36: both sides say of the first six bytes, the middle and the last two bytes what they are. -/
theorem wellFormedFrameIffBuilt : Obligations.WellFormedFrameIffBuilt := by
  intro c f
  constructor
  · intro h
    have hlen : 8 ≤ f.length := by
      by_contra hshort
      simp [wellFormedFrame, frameShaped, hshort] at h
    obtain ⟨a0, a1, op, a3, a4, a5, x, y, p, rfl⟩ := exists_header_middle_end hlen
    obtain ⟨rfl, rfl, rfl, hle, hp, rfl, rfl, rfl⟩ := (wellFormedFrame_header_middle_end ..).1 h
    obtain rfl : a4 = BitVec.ofNat 8 p.length := by rw [hp, BitVec.ofNat_toNat, BitVec.setWidth_eq]
    exact ⟨op, p, hp.trans_le hle, rfl⟩
  · rintro ⟨op, p, hp, rfl⟩
    exact (wellFormedFrame_header_middle_end ..).2
      ⟨rfl, rfl, rfl, (toNat_ofNat_length hp).trans_le hp, (toNat_ofNat_length hp).symm, rfl, rfl, rfl⟩

/-- Settles O37: the length told from the front cuts off the first frame, and the rest is the stream of the others. -/
theorem streamCutsBackIntoFrames : Obligations.StreamCutsBackIntoFrames := by
  intro c fs
  induction fs with
  | nil =>
    intro fuel _ _
    cases fuel <;> rfl
  | cons f fs ih =>
    intro fuel hfs hfuel
    obtain ⟨hf, hrest⟩ := List.forall_mem_cons.1 hfs
    cases fuel with
    | zero => exact absurd hfuel (Nat.not_succ_le_zero _)
    | succ fuel =>
      have hne : frameBytes c f.1 f.2 ++ framesBytes c fs ≠ [] := List.cons_ne_nil _ _
      rw [framesBytes, List.flatMap_cons, ← framesBytes, cutFrames_of_ne_nil hne, frontLength_frameBytes_append c f.1 hf,
        List.take_left, List.drop_left, ih fuel hrest (Nat.le_of_succ_le_succ hfuel), List.map_cons]

end Sys2Proof.Machine
end
